-- ==== Sys2Proof/Word.lean ====
section
/-! DEFINITION. The one word of the machine: every register, Memory cell and instruction field is a byte
(00_scope.md R5, R9). -/

namespace Sys2Proof

/-- An unsigned 8-bit value; `+` and `-` wrap modulo 256 (00_scope.md R9, 41_imm_add.md R67). -/
abbrev Byte := BitVec 8

end Sys2Proof
end

