-- ==== Sys2Proof/Config.lean ====
section
/-! DEFINITION. What an implementation fixes (the parameters of 00_scope.md R6, R7, as plain data) and the
values the spec leaves free (opaque constants without a body). -/

namespace Sys2Proof

/-- The eight handlers, in the document's order (30_encoding.md R52). -/
inductive Opc where
  | imm | add | stk | stm | ldm | cmp | jmp | sys
  deriving DecidableEq, Repr

/-- The seven named registers (10_state.md R13). -/
inductive Reg where
  | a | b | c | d | s | i | f
  deriving DecidableEq, Repr

/-- The five condition flags Less, Greater, Equal, NotEqual, BothZero (10_state.md R18). -/
inductive Flag where
  | l | g | e | n | z
  deriving DecidableEq, Repr

/-- The six syscall operations (00_scope.md R6, 90_conflicts.md C1). -/
inductive SysOp where
  | openFile | readCode | readMemory | write | sleep | exit
  deriving DecidableEq, Repr

def Opc.all : List Opc := [.imm, .add, .stk, .stm, .ldm, .cmp, .jmp, .sys]

def Reg.all : List Reg := [.a, .b, .c, .d, .s, .i, .f]

def Flag.all : List Flag := [.l, .g, .e, .n, .z]

/-- All operations, in the fixed order in which one SYS executes them (44_syscall.md R83). -/
def SysOp.all : List SysOp := [.openFile, .readCode, .readMemory, .write, .sleep, .exit]

/-- The numeric encoding, a parameter of the model (00_scope.md R6, 92_eei_decisions.md D1). -/
structure Enc where
  opImm : Byte
  opAdd : Byte
  opStk : Byte
  opStm : Byte
  opLdm : Byte
  opCmp : Byte
  opJmp : Byte
  opSys : Byte
  regA : Byte
  regB : Byte
  regC : Byte
  regD : Byte
  regS : Byte
  regI : Byte
  regF : Byte
  flagL : Byte
  flagG : Byte
  flagE : Byte
  flagN : Byte
  flagZ : Byte
  sysOpen : Byte
  sysReadCode : Byte
  sysReadMemory : Byte
  sysWrite : Byte
  sysSleep : Byte
  sysExit : Byte
  deriving DecidableEq, Repr

/-- `Enc.op` of 00_scope.md R6. -/
def Enc.op (e : Enc) : Opc → Byte
  | .imm => e.opImm
  | .add => e.opAdd
  | .stk => e.opStk
  | .stm => e.opStm
  | .ldm => e.opLdm
  | .cmp => e.opCmp
  | .jmp => e.opJmp
  | .sys => e.opSys

/-- `Enc.reg` of 00_scope.md R6. -/
def Enc.reg (e : Enc) : Reg → Byte
  | .a => e.regA
  | .b => e.regB
  | .c => e.regC
  | .d => e.regD
  | .s => e.regS
  | .i => e.regI
  | .f => e.regF

/-- `Enc.flag` of 00_scope.md R6. -/
def Enc.flag (e : Enc) : Flag → Byte
  | .l => e.flagL
  | .g => e.flagG
  | .e => e.flagE
  | .n => e.flagN
  | .z => e.flagZ

/-- `Enc.sys` of 00_scope.md R6. -/
def Enc.sys (e : Enc) : SysOp → Byte
  | .openFile => e.sysOpen
  | .readCode => e.sysReadCode
  | .readMemory => e.sysReadMemory
  | .write => e.sysWrite
  | .sleep => e.sysSleep
  | .exit => e.sysExit

/-- A byte with exactly one bit set. -/
def isSingleBit (b : Byte) : Bool := [1, 2, 4, 8, 16, 32, 64, 128].contains b

/-- The constraints of 00_scope.md R6: opcodes and register ids injective, flags and syscalls each a set of
pairwise distinct single bits. -/
abbrev Enc.Valid (e : Enc) : Prop :=
  (Opc.all.map e.op).Nodup ∧ (Reg.all.map e.reg).Nodup ∧
  ((Flag.all.map e.flag).Nodup ∧ ∀ f ∈ Flag.all, isSingleBit (e.flag f) = true) ∧
  ((SysOp.all.map e.sys).Nodup ∧ ∀ o ∈ SysOp.all, isSingleBit (e.sys o) = true)

/-- `CODE_BOUND_POLICY` (00_scope.md R7, 92_eei_decisions.md D5). -/
inductive CodeBoundPolicy where
  | fixed | extend
  deriving DecidableEq, Repr

/-- The parameters a machine instance is built with; no step changes them. -/
structure Config where
  enc : Enc
  policy : CodeBoundPolicy
  deriving DecidableEq, Repr

/-- The host operations whose failure is fatal (10_state.md R20). -/
inductive IoOp where
  | openFile | readCode | readMemory | write
  deriving DecidableEq, Repr

/-- Why a run ended in `FATAL` (60_exceptions.md R98). -/
inductive FatalReason where
  | fetchOutOfBounds (index : Byte)
  | hostIoError (op : IoOp)
  deriving DecidableEq, Repr

/-- FREE VALUE. One less than the process status the environment reports for a fatal stop: the spec says only
that `FATAL_STATUS` is non-zero (60_exceptions.md R99, D27). Log entry 11. -/
opaque Config.freeFatalStatus : FatalReason → Nat

/-- FREE VALUE. The host's answer to the open request drawn with number `n`: a handle, or `none` for `Err`
(44_syscall.md R80). Log entry 3. -/
opaque Config.freeHandle : Nat → Option Nat

/-- FREE VALUE. The bytes the host offers to the read request drawn with number `n`, or `none` for `Err`
(44_syscall.md R80). Log entry 3. -/
opaque Config.freeData : Nat → Option (List Byte)

/-- FREE VALUE. The count the host offers to the write request drawn with number `n`, or `none` for `Err`
(44_syscall.md R80). Log entry 3. -/
opaque Config.freeCount : Nat → Option Nat

end Sys2Proof
end

