-- ==== Sys2Proof/Syntax.lean ====
section
/-! DEFINITION. Instructions as syntax: the raw three-byte slot of the codec (30_encoding.md R43, R45) and the
eight instructions of spec/opcode_table.json with their operands decoded. -/

namespace Sys2Proof

/-- The three fields of one instruction slot, in address order (30_encoding.md R45). -/
structure RawInstr where
  op : Byte
  a1 : Byte
  a2 : Byte
  deriving DecidableEq, Repr

/-- A decoded register operand (00_scope.md R11): a named register, or the sentinel NONE with the operand byte
that named no register. The byte is kept so that encoding gives the slot back; no meaning reads it. -/
inductive Operand where
  | reg (r : Reg)
  | none (raw : Byte)
  deriving DecidableEq, Repr

/-- The eight instructions (30_encoding.md R47, R52). -/
inductive Instr where
  | imm (rd : Operand) (value : Byte)
  | add (r1 r2 : Operand)
  | stk (pop push : Operand)
  | stm (addr value : Operand)
  | ldm (rd addr : Operand)
  | cmp (r1 r2 : Operand)
  | jmp (mask : Byte) (target : Operand)
  | sys (mask : Byte) (ret : Operand)
  deriving DecidableEq, Repr

/-- The handler an instruction belongs to. -/
def Instr.opc : Instr → Opc
  | .imm _ _ => .imm
  | .add _ _ => .add
  | .stk _ _ => .stk
  | .stm _ _ => .stm
  | .ldm _ _ => .ldm
  | .cmp _ _ => .cmp
  | .jmp _ _ => .jmp
  | .sys _ _ => .sys

/-- The register operands of an instruction (30_encoding.md R47). -/
def Instr.operands : Instr → List Operand
  | .imm rd _ => [rd]
  | .add r1 r2 => [r1, r2]
  | .stk pop push => [pop, push]
  | .stm addr value => [addr, value]
  | .ldm rd addr => [rd, addr]
  | .cmp r1 r2 => [r1, r2]
  | .jmp _ target => [target]
  | .sys _ ret => [ret]

end Sys2Proof
end

