-- ==== Sys2Proof/WellFormed.lean ====
section
/-! DEFINITION. Which instructions an encoding can express: a sentinel operand must carry a byte that names no
register (00_scope.md R11). Every other field is a byte and every byte is legal (30_encoding.md R54). -/

namespace Sys2Proof

/-- A NONE operand's byte is no register id under `e`. -/
def Operand.wellFormed (e : Enc) : Operand → Bool
  | .reg _ => true
  | .none raw => !(Reg.all.map e.reg).contains raw

/-- Every register operand is well formed. -/
def Instr.wellFormed (e : Enc) (i : Instr) : Bool := i.operands.all (Operand.wellFormed e)

end Sys2Proof
end

