-- ==== Sys2Proof/Decode.lean ====
section
/-! DEFINITION. The codec (30_encoding.md R43, R44), the decoder and encoder of one instruction
(R45 to R52), the reference encoding Enc0 (92_eei_decisions.md D2), and the table's reading of a word. -/

namespace Sys2Proof

/-! ### The codec -/

/-- `decode` of 30_encoding.md R43: consecutive groups of three bytes; 1 or 2 trailing bytes are dropped. -/
def splitSlots : List Byte → List RawInstr
  | op :: a1 :: a2 :: rest => ⟨op, a1, a2⟩ :: splitSlots rest
  | _ => []

/-- The three bytes of a slot in address order (30_encoding.md R44, R45). -/
def RawInstr.bytes (r : RawInstr) : List Byte := [r.op, r.a1, r.a2]

/-- `encode` of 30_encoding.md R44. -/
def joinSlots : List RawInstr → List Byte
  | [] => []
  | r :: rest => r.bytes ++ joinSlots rest

/-! ### One instruction -/

/-- Operand resolution (00_scope.md R11, 30_encoding.md R48). -/
def resolve (e : Enc) (b : Byte) : Operand :=
  if b = e.regA then .reg .a
  else if b = e.regB then .reg .b
  else if b = e.regC then .reg .c
  else if b = e.regD then .reg .d
  else if b = e.regS then .reg .s
  else if b = e.regI then .reg .i
  else if b = e.regF then .reg .f
  else .none b

/-- Why bytes are no instruction of the table. An unrecognized opcode is NOT an error of the machine: the step
executes it as a no-op (30_encoding.md R53). -/
inductive DecodeError where
  /-- The opcode byte equals no `Enc.op` value. -/
  | unrecognized (op : Byte)
  /-- Fewer than three bytes are left (30_encoding.md R43). -/
  | truncated
  deriving DecidableEq, Repr

/-- Dispatch on the whole opcode byte (30_encoding.md R52, 40_interpreter.md R60), with the operand kinds of
30_encoding.md R47. -/
def decodeSlot (e : Enc) (r : RawInstr) : Except DecodeError Instr :=
  if r.op = e.opImm then .ok (.imm (resolve e r.a1) r.a2)
  else if r.op = e.opAdd then .ok (.add (resolve e r.a1) (resolve e r.a2))
  else if r.op = e.opStk then .ok (.stk (resolve e r.a1) (resolve e r.a2))
  else if r.op = e.opStm then .ok (.stm (resolve e r.a1) (resolve e r.a2))
  else if r.op = e.opLdm then .ok (.ldm (resolve e r.a1) (resolve e r.a2))
  else if r.op = e.opCmp then .ok (.cmp (resolve e r.a1) (resolve e r.a2))
  else if r.op = e.opJmp then .ok (.jmp r.a1 (resolve e r.a2))
  else if r.op = e.opSys then .ok (.sys r.a1 (resolve e r.a2))
  else .error (.unrecognized r.op)

/-- The first instruction of a byte string, with the bytes after it. -/
def decode (e : Enc) : List Byte → Except DecodeError (Instr × List Byte)
  | op :: a1 :: a2 :: rest =>
    match decodeSlot e ⟨op, a1, a2⟩ with
    | .ok i => .ok (i, rest)
    | .error err => .error err
  | _ => .error .truncated

/-- The operand byte of an operand. -/
def Operand.byte (e : Enc) : Operand → Byte
  | .reg r => e.reg r
  | .none raw => raw

/-- The slot that encodes an instruction (30_encoding.md R45, R47, R52). -/
def encode (e : Enc) : Instr → RawInstr
  | .imm rd v => ⟨e.opImm, rd.byte e, v⟩
  | .add r1 r2 => ⟨e.opAdd, r1.byte e, r2.byte e⟩
  | .stk pop push => ⟨e.opStk, pop.byte e, push.byte e⟩
  | .stm addr v => ⟨e.opStm, addr.byte e, v.byte e⟩
  | .ldm rd addr => ⟨e.opLdm, rd.byte e, addr.byte e⟩
  | .cmp r1 r2 => ⟨e.opCmp, r1.byte e, r2.byte e⟩
  | .jmp mask t => ⟨e.opJmp, mask, t.byte e⟩
  | .sys mask ret => ⟨e.opSys, mask, ret.byte e⟩

/-- Whether the mask `a1` of a SYS requests operation `o` (30_encoding.md R51, 44_syscall.md R82). -/
def Enc.requests (e : Enc) (mask : Byte) (o : SysOp) : Bool := mask &&& e.sys o != 0

/-! ### The reference assignment and the opcode table -/

/-- `Enc0` of 92_eei_decisions.md D2, the encoding of spec/opcode_table.json. DESIGN CHOICE: the spec's own
choice, not the repository's values (log entry 1). -/
def encReference : Enc where
  opImm := 0x01
  opAdd := 0x02
  opStk := 0x04
  opStm := 0x08
  opLdm := 0x10
  opCmp := 0x20
  opJmp := 0x40
  opSys := 0x80
  regA := 0x01
  regB := 0x02
  regC := 0x04
  regD := 0x08
  regS := 0x10
  regI := 0x20
  regF := 0x40
  flagL := 0x01
  flagG := 0x02
  flagE := 0x04
  flagN := 0x08
  flagZ := 0x10
  sysOpen := 0x01
  sysReadCode := 0x02
  sysReadMemory := 0x04
  sysWrite := 0x08
  sysSleep := 0x10
  sysExit := 0x20

/-- The parameters of the reference machine: Enc0 and the default policy (00_scope.md R6, R7). DESIGN CHOICE
(log entries 1, 2). -/
def configReference : Config := ⟨encReference, .fixed⟩

/-- The slot written as the 24-bit number `iw = op ++ a1 ++ a2` of 30_encoding.md R45, of which the table gives
the low `nbits` bits and the rest are 0. The first byte is the most significant (log entry 10). -/
def slotOfWord (nbits w : Nat) : RawInstr :=
  let iw : BitVec 24 := BitVec.ofNat 24 (w % 2 ^ nbits)
  ⟨iw.extractLsb' 16 8, iw.extractLsb' 8 8, iw.extractLsb' 0 8⟩

/-- What the decoder reads from an instruction of the table, under the table's encoding Enc0. -/
def decodeTableWord (nbits w : Nat) : Option Instr :=
  match decode encReference (slotOfWord nbits w).bytes with
  | .ok (i, _) => some i
  | .error _ => none

end Sys2Proof
end

