-- ==== Sys2Proof/Machine/State.lean ====
section
/-! DEFINITION. Everything the spec gives the machine, as plain data (10_state.md), the reasons a step can stop,
and the state after reset (70_reset_and_hazards.md R113). -/

namespace Sys2Proof.Machine

/-- The seven named registers (10_state.md R13). NONE has no storage. -/
structure Regs where
  a : Byte
  b : Byte
  c : Byte
  d : Byte
  s : Byte
  i : Byte
  f : Byte
  deriving DecidableEq, Repr

/-- A byte array as a list of cells: addresses strictly rising, no cell holding 0, which is what an unlisted
address reads as (70_reset_and_hazards.md R113: M is all 0; CODE beyond the load is 0, D6). -/
abbrev Memory := List Host.Cell

/-- The canonical form of a memory: equal memories are equal lists. -/
abbrev Memory.wf (m : Memory) : Prop :=
  (m.map Prod.fst).Pairwise (· < ·) ∧ ∀ c ∈ m, c.2 ≠ 0

/-- No listed address lies at or beyond `size`. -/
abbrev Memory.within (size : Nat) (m : Memory) : Prop := ∀ c ∈ m, c.1 < size

/-- The number of bytes of M (10_state.md R21). -/
abbrev memSize : Nat := 256

/-- The number of bytes of CODE (10_state.md R22). -/
abbrev codeSize : Nat := 768

/-- The control state of the interpreter FSM (10_state.md R20). -/
inductive RunState where
  | running
  | exited (code : Byte)
  | fatal (reason : FatalReason)
  deriving DecidableEq, Repr

/-- The syscall sequencer (10_state.md R25). -/
inductive SysPhase where
  | idle
  | active (op : SysOp)
  deriving DecidableEq, Repr

/-- A host request with its arguments (44_syscall.md R79). -/
inductive HostRequest where
  | openFile (path : List Byte)
  | read (handle : Byte) (maxlen : Nat)
  | write (handle : Byte) (bytes : List Byte)
  | sleep (seconds : Byte)
  | exit (code : Byte)
  deriving DecidableEq, Repr

/-- A host response (44_syscall.md R79): `Ok` with a handle, bytes or a count; `Done`; or `Err`. -/
inductive HostResponse where
  | handle (h : Nat)
  | data (d : List Byte)
  | count (w : Nat)
  | done
  | err
  deriving DecidableEq, Repr

/-- One entry of the host history: the request and its response, `none` for the exit request, which has none
(44_syscall.md R79). -/
structure Transaction where
  request : HostRequest
  response : Option HostResponse
  deriving DecidableEq, Repr

/-- What emitted a trace event (60_exceptions.md R107). -/
inductive TraceKind where
  | cmp
  | sys
  deriving DecidableEq, Repr

/-- A trace event: its kind and the snapshot of the seven registers and M (60_exceptions.md R107). -/
structure TraceEvent where
  kind : TraceKind
  regs : Regs
  mem : Memory
  deriving DecidableEq, Repr

/-- The whole state of the block (10_state.md). -/
structure State where
  /-- The parameters of this machine (00_scope.md R6, R7); no step changes them. -/
  cfg : Config
  /-- A, B, C, D, S, I, F (R13 to R17). -/
  regs : Regs
  /-- M, 256 bytes (R21). -/
  mem : Memory
  /-- CODE, 768 bytes (R22). -/
  code : Memory
  /-- `code_len`, the fetch bound, 0 to 256 (R19). -/
  codeLen : Nat
  /-- `run` (R20). -/
  run : RunState
  /-- `sys_phase` (R25). -/
  sysPhase : SysPhase
  /-- The host history, oldest first: an output (44_syscall.md R79). -/
  history : List Transaction
  /-- The trace events, oldest first: an output (60_exceptions.md R107). -/
  trace : List TraceEvent
  /-- The MODEL's own field: the answers the host is going to give, next first; `none` is a host that never
  answers. When it is empty the host's answers are free values (log entry 3). -/
  hostScript : List (Option HostResponse)
  /-- The MODEL's own field: how many answers have been drawn from the free values (log entry 3). -/
  hostDraws : Nat
  deriving DecidableEq, Repr

/-- Why a step has no next state. -/
inductive Fault where
  /-- Raised by `step` in EXITED or FATAL: "Terminal states have no step" (40_interpreter.md R63). Safe: the spec
  gives no next state. -/
  | halted (run : RunState)
  /-- Raised by a SYS when the script says that the host never answers: the block is stuck in that phase
  (44_syscall.md R81, 93_implementation_defined.md H2). Safe: the spec gives no next state. -/
  | hostSilent (phase : SysPhase)
  /-- Raised by a SYS when the scripted answer lies outside the bounds of 44_syscall.md R79: it has no move, and
  93_implementation_defined.md H1 allows a fault reason of the model's own. Safe: the spec gives no next state. -/
  | hostBreach (phase : SysPhase)
  deriving DecidableEq, Repr

/-- Why the model declines. -/
inductive Refusal where
  /-- Raised by `exec` for an instruction without a meaning; no arm does. Safe: nothing can be proved of a run
  through it. -/
  | notModelled (mnemonic : String)
  /-- Raised by `State.load` on more than 768 bytes: no instance is built (70_reset_and_hazards.md R116). Safe:
  the spec itself refuses. -/
  | loadTooLong (length : Nat)
  deriving DecidableEq, Repr

/-- The machine right after reset, by the load of an empty byte string (70_reset_and_hazards.md R112, R113, R115):
every value is the spec's but the parameters (log entries 1, 2) and the two host fields (log entry 4). -/
def State.reset : State where
  cfg := configReference
  regs := ⟨0, 0, 0, 0, 0, 0, 0⟩
  mem := []
  code := []
  codeLen := 0
  run := .running
  sysPhase := .idle
  history := []
  trace := []
  hostScript := []
  hostDraws := 0

end Sys2Proof.Machine
end

