-- ==== Sys2Proof/Machine/Ops.lean ====
section
/-! DEFINITION. The named operations over memories, registers and the control state: every read and write of a
piece of state goes through one of these. `raiseFatal` is the one shared way a run is stopped by an error
(60_exceptions.md R101); there is no return from it (R105). -/

namespace Sys2Proof

/-- `FATAL_STATUS(reason)`: any non-zero natural (60_exceptions.md R99). -/
def FatalReason.status (r : FatalReason) : Nat := Config.freeFatalStatus r + 1

end Sys2Proof

namespace Sys2Proof.Machine

/-! ### Memories -/

/-- The byte at address `a`; 0 where nothing is listed. -/
def Memory.read (m : Memory) (a : Nat) : Byte :=
  match m with
  | [] => 0
  | c :: rest => if c.1 = a then c.2 else Memory.read rest a

/-- Put byte `v` at address `a`, keeping the canonical form. -/
def Memory.write (m : Memory) (a : Nat) (v : Byte) : Memory :=
  match m with
  | [] => if v = 0 then [] else [(a, v)]
  | c :: rest =>
    if c.1 < a then c :: Memory.write rest a v
    else if c.1 = a then (if v = 0 then rest else (a, v) :: rest)
    else if v = 0 then c :: rest else (a, v) :: c :: rest

/-- Put byte `j` of `bytes` at address `base + j`, in increasing address order (20_memory.md R29). -/
def Memory.writeBytes (m : Memory) (base : Nat) (bytes : List Byte) : Memory :=
  match bytes with
  | [] => m
  | v :: rest => Memory.writeBytes (m.write base v) (base + 1) rest

/-- The `n` bytes from address `base` on, in increasing address order (20_memory.md R29). -/
def Memory.readBytes (m : Memory) (base : Nat) (n : Nat) : List Byte :=
  match n with
  | 0 => []
  | k + 1 => m.read base :: Memory.readBytes m (base + 1) k

/-! ### Registers -/

/-- `x[r]` of a named register. -/
def Regs.get (x : Regs) : Reg → Byte
  | .a => x.a
  | .b => x.b
  | .c => x.c
  | .d => x.d
  | .s => x.s
  | .i => x.i
  | .f => x.f

/-- `x[r] <- v` of a named register. -/
def Regs.set (x : Regs) (r : Reg) (v : Byte) : Regs :=
  match r with
  | .a => { x with a := v }
  | .b => { x with b := v }
  | .c => { x with c := v }
  | .d => { x with d := v }
  | .s => { x with s := v }
  | .i => { x with i := v }
  | .f => { x with f := v }

/-- Write a named register. -/
def State.setReg (s : State) (r : Reg) (v : Byte) : State := { s with regs := s.regs.set r v }

/-! ### Memory M and Code -/

/-- `MemWrite(addr, 1, v)` (00_scope.md R10). Every 8-bit address exists (20_memory.md R31). -/
def State.writeMem (s : State) (addr v : Byte) : State := { s with mem := s.mem.write addr.toNat v }

/-- `MemRead(addr, 1)` (00_scope.md R10). -/
def State.readMem (s : State) (addr : Byte) : Byte := s.mem.read addr.toNat

/-- A bulk transfer into M from address `base` on (20_memory.md R29). -/
def State.writeMemBytes (s : State) (base : Nat) (bytes : List Byte) : State :=
  { s with mem := s.mem.writeBytes base bytes }

/-- `CodeWrite(off, bytes)` (00_scope.md R10). -/
def State.writeCode (s : State) (off : Nat) (bytes : List Byte) : State :=
  { s with code := s.code.writeBytes off bytes }

/-- `update_code_len(b, r)` (44_syscall.md R88). -/
def State.updateCodeLen (s : State) (b r : Nat) : State :=
  match s.cfg.policy with
  | .fixed => s
  | .extend => { s with codeLen := max s.codeLen (b + r / 3) }

/-! ### Control state and outputs -/

/-- `raise Fatal(reason)`: only `run` changes (60_exceptions.md R101). -/
def State.raiseFatal (s : State) (reason : FatalReason) : State := { s with run := .fatal reason }

/-- Entry into `EXITED(code)` (44_syscall.md R92). -/
def State.exitRun (s : State) (code : Byte) : State := { s with run := .exited code }

/-- The sequencer moves to a phase (10_state.md R25). -/
def State.setPhase (s : State) (p : SysPhase) : State := { s with sysPhase := p }

/-- `Trace(kind)`: append the snapshot of the registers and M to the trace (60_exceptions.md R107). -/
def State.emitTrace (s : State) (kind : TraceKind) : State :=
  { s with trace := s.trace ++ [⟨kind, s.regs, s.mem⟩] }

/-- The process status the environment reports, once the run has ended (60_exceptions.md R99). -/
def State.exitStatus (s : State) : Option Nat :=
  match s.run with
  | .running => none
  | .exited code => some code.toNat
  | .fatal r => some r.status

/-! ### Load -/

/-- `Load(bytes)` on a machine with parameters `cfg` and a host about to give the answers `script`: it builds the
initial state (70_reset_and_hazards.md R112, R113, R115), and refuses more than 768 bytes (R116). -/
def State.load (cfg : Config) (script : List (Option HostResponse)) (bytes : List Byte) :
    Host.Outcome State Fault Refusal :=
  if bytes.length ≤ codeSize then
    .next { State.reset with
      cfg := cfg
      code := Memory.writeBytes [] 0 bytes
      codeLen := (splitSlots bytes).length
      hostScript := script }
  else .refused (.loadTooLong bytes.length)

end Sys2Proof.Machine
end

