-- ==== Sys2Proof/Machine/Operands.lean ====
section
/-! DEFINITION. The operand forms: a register operand, where NONE reads 0 and discards writes (00_scope.md R11),
and the addressing modes of 42_stack_memory.md R72. -/

namespace Sys2Proof.Machine

/-- `x[r]` of a resolved operand: NONE reads 0 (00_scope.md R11). -/
def State.readOperand (s : State) : Operand → Byte
  | .reg r => s.regs.get r
  | .none _ => 0

/-- `x[r] <- v` of a resolved operand: a write to NONE is discarded (00_scope.md R11). -/
def State.writeOperand (s : State) (o : Operand) (v : Byte) : State :=
  match o with
  | .reg r => s.setReg r v
  | .none _ => s

/-- Push with pre-increment: S moves first, and the source register is read after that
(42_stack_memory.md R69, R72). NONE pushes nothing. -/
def State.push (s : State) (src : Operand) : State :=
  match src with
  | .reg r =>
    let s1 := s.setReg .s (s.regs.s + 1)
    s1.writeMem s1.regs.s (s1.regs.get r)
  | .none _ => s

/-- Pop with post-decrement: the S that is decremented is S after the load (42_stack_memory.md R69, R72). NONE pops
nothing. -/
def State.pop (s : State) (dst : Operand) : State :=
  match dst with
  | .reg r =>
    let s1 := s.setReg r (s.readMem s.regs.s)
    s1.setReg .s (s1.regs.s - 1)
  | .none _ => s

end Sys2Proof.Machine
end

