-- ==== Sys2Proof/Machine/Flags.lean ====
section
/-! DEFINITION. The flag computation of CMP and the flag test of JMP (43_compare_jump.md R74, R76). -/

namespace Sys2Proof.Machine

/-- The bits a CMP of `u` and `v` puts in F, an unsigned comparison (43_compare_jump.md R74, R75). -/
def compareFlags (e : Enc) (u v : Byte) : Byte :=
  let less := if u.toNat < v.toNat then e.flagL else 0
  let greater := if v.toNat < u.toNat then e.flagG else 0
  let equality := if u = v then e.flagE else e.flagN
  let bothZero := if u = 0 ∧ v = 0 then e.flagZ else 0
  less ||| greater ||| equality ||| bothZero

/-- Whether a JMP with this mask is taken when F holds `f` (43_compare_jump.md R76, 30_encoding.md R50). -/
def jumpTaken (mask f : Byte) : Bool := mask == 0 || mask &&& f != 0

end Sys2Proof.Machine
end

