-- ==== Sys2Proof/Machine/CompareJump.lean ====
section
/-! DEFINITION. Compare and jump (43_compare_jump.md). -/

namespace Sys2Proof.Machine

/-- CMP (43_compare_jump.md R74): both values are read before F is replaced; one trace event follows (D17, log
entry 13). -/
def execCmp (r1 r2 : Operand) (s : State) : Host.Outcome State Fault Refusal :=
  .next ((s.setReg .f (compareFlags s.cfg.enc (s.readOperand r1) (s.readOperand r2))).emitTrace .cmp)

/-- JMP (43_compare_jump.md R76). -/
def execJmp (mask : Byte) (target : Operand) (s : State) : Host.Outcome State Fault Refusal :=
  if jumpTaken mask s.regs.f then .next (s.setReg .i (s.readOperand target)) else .next s

end Sys2Proof.Machine
end

