-- ==== Sys2Proof/Machine/ImmAdd.lean ====
section
/-! DEFINITION. Immediate-load and Add (41_imm_add.md). -/

namespace Sys2Proof.Machine

/-- IMM (41_imm_add.md R65). -/
def execImm (rd : Operand) (value : Byte) (s : State) : Host.Outcome State Fault Refusal :=
  .next (s.writeOperand rd value)

/-- ADD (41_imm_add.md R66): both reads happen before the write. -/
def execAdd (r1 r2 : Operand) (s : State) : Host.Outcome State Fault Refusal :=
  .next (s.writeOperand r1 (s.readOperand r1 + s.readOperand r2))

end Sys2Proof.Machine
end

