-- ==== Sys2Proof/Machine/StackMemory.lean ====
section
/-! DEFINITION. Stack, store and load (42_stack_memory.md). -/

namespace Sys2Proof.Machine

/-- STK (42_stack_memory.md R69): the push of `src`, then the pop into `dst`, each reading what is there then. -/
def execStk (dst src : Operand) (s : State) : Host.Outcome State Fault Refusal :=
  .next ((s.push src).pop dst)

/-- STM (42_stack_memory.md R70). -/
def execStm (addr value : Operand) (s : State) : Host.Outcome State Fault Refusal :=
  .next (s.writeMem (s.readOperand addr) (s.readOperand value))

/-- LDM (42_stack_memory.md R71). -/
def execLdm (rd addr : Operand) (s : State) : Host.Outcome State Fault Refusal :=
  .next (s.writeOperand rd (s.readMem (s.readOperand addr)))

end Sys2Proof.Machine
end

