-- ==== Sys2Proof/Machine/HostBridge.lean ====
section
/-! DEFINITION. The Host I/O Bridge: one synchronous transaction with the host, whose answer is scripted in the
state or a free value (44_syscall.md R79, R80, R81; log entries 3, 5). -/

namespace Sys2Proof.Machine

/-- The answers 44_syscall.md R79 allows to a request. -/
def HostRequest.allows : HostRequest → HostResponse → Bool
  | .openFile _, .handle _ => true
  | .openFile _, .err => true
  | .read _ maxlen, .data d => d.length ≤ maxlen
  | .read _ _, .err => true
  | .write _ bytes, .count w => w ≤ bytes.length
  | .write _ _, .err => true
  | .sleep _, .done => true
  | _, _ => false

/-- The answer drawn with number `n`: a free value cut to the bounds of 44_syscall.md R79, so that every allowed
answer and no other can be drawn. A sleep is answered `Done` (R81). -/
def HostRequest.freeResponse (req : HostRequest) (n : Nat) : HostResponse :=
  match req with
  | .openFile _ =>
    match Config.freeHandle n with
    | some h => .handle h
    | none => .err
  | .read _ maxlen =>
    match Config.freeData n with
    | some d => .data (d.take maxlen)
    | none => .err
  | .write _ bytes =>
    match Config.freeCount n with
    | some w => .count (min w bytes.length)
    | none => .err
  | .sleep _ => .done
  | .exit _ => .done

/-- The host's answer to `req` in this state; `none` where it never answers. -/
def State.hostAnswer (s : State) (req : HostRequest) : Option HostResponse :=
  match s.hostScript with
  | [] => some (req.freeResponse s.hostDraws)
  | answer :: _ => answer

/-- The host has given one answer: the script loses its first entry, or one more answer has been drawn. -/
def State.hostAdvance (s : State) : State :=
  { s with
    hostScript := s.hostScript.tail
    hostDraws := if s.hostScript.isEmpty then s.hostDraws + 1 else s.hostDraws }

/-- Append a transaction to the host history (44_syscall.md R79). -/
def State.recordHost (s : State) (req : HostRequest) (resp : Option HostResponse) : State :=
  { s with history := s.history ++ [⟨req, resp⟩] }

/-- The outcome of one host request. -/
inductive BridgeResult where
  /-- The host answered within its duty; the history records it. -/
  | answered (resp : HostResponse) (s : State)
  /-- The block is stuck. -/
  | stuck (f : Fault)
  deriving DecidableEq, Repr

/-- Send a request and wait for its response (44_syscall.md R79). -/
def State.hostTransact (s : State) (req : HostRequest) : BridgeResult :=
  match s.hostAnswer req with
  | none => .stuck (.hostSilent s.sysPhase)
  | some resp =>
    if req.allows resp then .answered resp (s.hostAdvance.recordHost req (some resp))
    else .stuck (.hostBreach s.sysPhase)

end Sys2Proof.Machine
end

