-- ==== Sys2Proof/Machine/Syscall.lean ====
section
/-! DEFINITION. The syscall instruction, its sequencer and its six sub-operations (44_syscall.md). -/

namespace Sys2Proof.Machine

/-- How a sub-operation ends. -/
inductive SysResult where
  /-- It completed; the sequencer goes on. -/
  | more (s : State)
  /-- The run has ended, by a fatal host error or the exit. -/
  | ended (s : State)
  /-- The block is stuck waiting for the host. -/
  | stuck (f : Fault)
  deriving DecidableEq, Repr

/-- `PathAt(a)`: the bytes of M from `a` up to the first NUL or the end of Memory (44_syscall.md R86). -/
def pathAt (m : Memory) (a : Byte) : List Byte :=
  (m.readBytes a.toNat (memSize - a.toNat)).takeWhile (· != 0)

/-- The clamped length `min(256 - B, C)` of a read-memory or write (44_syscall.md R89, R90). -/
def State.clampedLen (s : State) : Nat := min (memSize - s.regs.b.toNat) s.regs.c.toNat

/-- The byte offset `3 * B` of a read-code, on naturals (44_syscall.md R87). -/
def State.codeOffset (s : State) : Nat := 3 * s.regs.b.toNat

/-- The host request each sub-operation makes in the state it runs in (44_syscall.md R85, R87, R89 to R92). -/
def State.sysRequest (s : State) : SysOp → HostRequest
  | .openFile => .openFile (pathAt s.mem s.regs.a)
  | .readCode => .read s.regs.a (codeSize - s.codeOffset)
  | .readMemory => .read s.regs.a s.clampedLen
  | .write => .write s.regs.a (s.mem.readBytes s.regs.b.toNat s.clampedLen)
  | .sleep => .sleep s.regs.a
  | .exit => .exit s.regs.a

/-- The return register receives a handle or count modulo 256 (44_syscall.md R84, R95). -/
def State.writeResult (s : State) (ret : Operand) (v : Nat) : State :=
  s.writeOperand ret (BitVec.ofNat 8 v)

/-- OPEN (44_syscall.md R85). -/
def subOpen (ret : Operand) (s : State) : SysResult :=
  match s.hostTransact (s.sysRequest .openFile) with
  | .answered (.handle h) t => .more (t.writeResult ret h)
  | .answered _ t => .ended (t.raiseFatal (.hostIoError .openFile))
  | .stuck f => .stuck f

/-- READ_CODE (44_syscall.md R87, R88). -/
def subReadCode (ret : Operand) (s : State) : SysResult :=
  match s.hostTransact (s.sysRequest .readCode) with
  | .answered (.data d) t =>
    .more (((t.writeCode s.codeOffset d).updateCodeLen s.regs.b.toNat d.length).writeResult ret d.length)
  | .answered _ t => .ended (t.raiseFatal (.hostIoError .readCode))
  | .stuck f => .stuck f

/-- READ_MEMORY (44_syscall.md R89). -/
def subReadMemory (ret : Operand) (s : State) : SysResult :=
  match s.hostTransact (s.sysRequest .readMemory) with
  | .answered (.data d) t => .more ((t.writeMemBytes s.regs.b.toNat d).writeResult ret d.length)
  | .answered _ t => .ended (t.raiseFatal (.hostIoError .readMemory))
  | .stuck f => .stuck f

/-- WRITE (44_syscall.md R90). -/
def subWrite (ret : Operand) (s : State) : SysResult :=
  match s.hostTransact (s.sysRequest .write) with
  | .answered (.count w) t => .more (t.writeResult ret w)
  | .answered _ t => .ended (t.raiseFatal (.hostIoError .write))
  | .stuck f => .stuck f

/-- SLEEP (44_syscall.md R91): it cannot fail, and its duration is not modelled. -/
def subSleep (ret : Operand) (s : State) : SysResult :=
  match s.hostTransact (s.sysRequest .sleep) with
  | .answered _ t => .more (t.writeResult ret 0)
  | .stuck f => .stuck f

/-- EXIT (44_syscall.md R92): the request has no response, the return register is not written, the run ends. -/
def subExit (s : State) : SysResult :=
  .ended ((s.recordHost (s.sysRequest .exit) none).exitRun s.regs.a)

/-- One phase of the sequencer (10_state.md R25). -/
def runOp (ret : Operand) (o : SysOp) (s : State) : SysResult :=
  match o with
  | .openFile => subOpen ret (s.setPhase (.active .openFile))
  | .readCode => subReadCode ret (s.setPhase (.active .readCode))
  | .readMemory => subReadMemory ret (s.setPhase (.active .readMemory))
  | .write => subWrite ret (s.setPhase (.active .write))
  | .sleep => subSleep ret (s.setPhase (.active .sleep))
  | .exit => subExit (s.setPhase (.active .exit))

/-- The sequencer: the given operations one after another, each in the state the one before left, until the run
ends (44_syscall.md R83, R93). -/
def runOps (ret : Operand) (ops : List SysOp) (s : State) : SysResult :=
  match ops with
  | [] => .more s
  | o :: rest =>
    match runOp ret o s with
    | .more t => runOps ret rest t
    | .ended t => .ended t
    | .stuck f => .stuck f

/-- The operations a mask requests, in the fixed order; other mask bits are ignored
(44_syscall.md R82, R83, R96). -/
def requestedOps (e : Enc) (mask : Byte) : List SysOp := SysOp.all.filter (e.requests mask)

/-- SYS (44_syscall.md R82): the requested operations, then, if the run goes on, the sequencer is idle again and
one trace event is emitted (R94, D17, log entry 13). -/
def execSys (mask : Byte) (ret : Operand) (s : State) : Host.Outcome State Fault Refusal :=
  match runOps ret (requestedOps s.cfg.enc mask) s with
  | .more t => .next ((t.setPhase .idle).emitTrace .sys)
  | .ended t => .next t
  | .stuck f => .fault f

end Sys2Proof.Machine
end

