-- ==== Sys2Proof/Machine/Dispatch.lean ====
section
/-! DEFINITION. One arm per instruction (40_interpreter.md R60). -/

namespace Sys2Proof.Machine

def exec (i : Instr) (s : State) : Host.Outcome State Fault Refusal :=
  match i with
  | .imm rd value => Sys2Proof.Machine.execImm rd value s
  | .add r1 r2 => Sys2Proof.Machine.execAdd r1 r2 s
  | .stk pop push => Sys2Proof.Machine.execStk pop push s
  | .stm addr value => Sys2Proof.Machine.execStm addr value s
  | .ldm rd addr => Sys2Proof.Machine.execLdm rd addr s
  | .cmp r1 r2 => Sys2Proof.Machine.execCmp r1 r2 s
  | .jmp mask target => Sys2Proof.Machine.execJmp mask target s
  | .sys mask ret => Sys2Proof.Machine.execSys mask ret s

end Sys2Proof.Machine
end

