-- ==== Sys2Proof/Machine/Fetch.lean ====
section
/-! DEFINITION. Fetch, increment and dispatch (40_interpreter.md R58 to R62), and placing an instruction where the
next fetch reads it. -/

namespace Sys2Proof.Machine

/-- `CodeRead(3*k, 3)` at `k = x[I]`, from the current CODE (30_encoding.md R46). -/
def State.fetchSlot (s : State) : RawInstr :=
  let off := 3 * s.regs.i.toNat
  ⟨s.code.read off, s.code.read (off + 1), s.code.read (off + 2)⟩

/-- `x[I] <- x[I] + 1` modulo 256, unconditionally and before the execution (40_interpreter.md R59). -/
def State.advancePc (s : State) : State := s.setReg .i (s.regs.i + 1)

/-- Whether the fetch is within the bound: `x[I] < code_len` (40_interpreter.md R58). -/
def State.fetchInBounds (s : State) : Bool := s.regs.i.toNat < s.codeLen

/-- An unrecognized opcode changes nothing beyond the increment of I (40_interpreter.md R62). -/
def execUnrecognized (s : State) : Host.Outcome State Fault Refusal := .next s

/-- Dispatch of a fetched slot, after the increment (40_interpreter.md R60). -/
def dispatchSlot (slot : RawInstr) (s : State) : Host.Outcome State Fault Refusal :=
  match decodeSlot s.cfg.enc slot with
  | .ok i => exec i s
  | .error _ => execUnrecognized s

/-- The step of a running machine (40_interpreter.md R58, R59). -/
def runningStep (s : State) : Host.Outcome State Fault Refusal :=
  if s.fetchInBounds then dispatchSlot s.fetchSlot s.advancePc
  else .next (s.raiseFatal (.fetchOutOfBounds s.regs.i))

/-- `s` running, with `slot` where the next fetch reads it and the fetch bound past it (log entry 9). -/
def State.placeSlot (s : State) (slot : RawInstr) : State :=
  { s with
    code := s.code.writeBytes (3 * s.regs.i.toNat) slot.bytes
    codeLen := max s.codeLen (s.regs.i.toNat + 1)
    run := .running }

end Sys2Proof.Machine
end

