-- ==== Sys2Proof/Machine/Step.lean ====
section
/-! DEFINITION. One step of the interpreter FSM (40_interpreter.md R57, R59, R63). -/

namespace Sys2Proof.Machine

/-- One step: exactly one instruction when RUNNING, none in a terminal state (40_interpreter.md R57, R63). -/
def step (s : State) : Host.Outcome State Fault Refusal :=
  match s.run with
  | .running => runningStep s
  | .exited _ => .fault (.halted s.run)
  | .fatal _ => .fault (.halted s.run)

/-- `s` with the table's instruction of bits `w` (30_encoding.md R45: the opcode in bits 23 to 16) where the next
step fetches it. It stands for the load of a program (log entry 9). -/
def State.withFetchWord (s : State) (nbits w : Nat) : State := s.placeSlot (slotOfWord nbits w)

end Sys2Proof.Machine
end

