-- ==== Sys2Proof/Safety.lean ====
section
/-! DEFINITION. What counts as a safe state, and the tables of what each instruction may write, in the terms the
statements use. -/

namespace Sys2Proof.Machine

/-- A request the block can make (44_syscall.md R79, R86, R87, R89, R90): a path of at most 256 bytes without NUL,
a read of at most 768 bytes, a write of at most 255 bytes. -/
def HostRequest.lawful : HostRequest → Bool
  | .openFile path => path.length ≤ memSize && path.all (· != 0)
  | .read _ maxlen => maxlen ≤ codeSize
  | .write _ bytes => bytes.length ≤ 255
  | .sleep _ => true
  | .exit _ => true

/-- A recorded transaction is a lawful request with a response the host may give (44_syscall.md R79). -/
def Transaction.lawful (t : Transaction) : Bool :=
  t.request.lawful &&
    match t.request, t.response with
    | .exit _, none => true
    | .exit _, some _ => false
    | _, none => false
    | req, some resp => req.allows resp

/-- A transaction after which the run goes on: it was answered, and not by `Err` (44_syscall.md R93). -/
def Transaction.succeeded (t : Transaction) : Bool := t.response != none && t.response != some .err

/-- The transaction that operation `o` puts in the history when it runs in state `s`: its request there, and the
host's answer to it, which EXIT does not have (44_syscall.md R79). -/
def State.transactionOf (s : State) (o : SysOp) : Transaction :=
  ⟨s.sysRequest o, if o = .exit then none else s.hostAnswer (s.sysRequest o)⟩

/-- The shape of the state in every run: valid parameters, canonical memories inside their sizes, the bound of
`code_len` (10_state.md R19), an idle sequencer between instructions (10_state.md R25), lawful outputs. -/
abbrev State.Inv (s : State) : Prop :=
  s.cfg.enc.Valid ∧
  (s.mem.wf ∧ s.mem.within memSize) ∧
  (s.code.wf ∧ s.code.within codeSize) ∧
  s.codeLen ≤ 256 ∧
  (s.run = .running → s.sysPhase = .idle) ∧
  (∀ t ∈ s.history, t.lawful = true) ∧
  (∀ ev ∈ s.trace, ev.mem.wf ∧ ev.mem.within memSize)

/-- The control state agrees with what happened (40_interpreter.md R57, 60_exceptions.md R98): a running machine
has seen no error and no exit; EXITED follows the exit request with its code; FATAL follows an out-of-bounds index
still in I, or an `Err`. -/
def State.RunMatchesHistory (s : State) : Prop :=
  match s.run with
  | .running => ∀ t ∈ s.history, t.succeeded = true
  | .exited code => s.history.getLast? = some ⟨.exit code, none⟩
  | .fatal (.fetchOutOfBounds k) => s.regs.i = k ∧ s.codeLen ≤ k.toNat
  | .fatal (.hostIoError _) => (s.history.getLast?.map Transaction.response) = some (some .err)

end Sys2Proof.Machine

namespace Sys2Proof

open Sys2Proof.Machine

/-- The syscall operation an error names (10_state.md R20). -/
def IoOp.sysOp : IoOp → SysOp
  | .openFile => .openFile
  | .readCode => .readCode
  | .readMemory => .readMemory
  | .write => .write

/-- The instruction is a SYS. -/
def Instr.isSys : Instr → Bool
  | .sys _ _ => true
  | _ => false

/-- The registers column of 10_state.md R23: `r` is one that instruction `i` may write in state `s`. -/
def Instr.writesReg (i : Instr) (s : State) (r : Reg) : Prop :=
  match i with
  | .imm rd _ => rd = .reg r
  | .add r1 _ => r1 = .reg r
  | .stk (.none _) (.none _) => False
  | .stk pop _ => r = .s ∨ pop = .reg r
  | .stm _ _ => False
  | .ldm rd _ => rd = .reg r
  | .cmp _ _ => r = .f
  | .jmp mask _ => r = .i ∧ (mask = 0 ∨ mask &&& s.regs.f ≠ 0)
  | .sys mask ret => ret = .reg r ∧ ∃ o, o ≠ .exit ∧ s.cfg.enc.requests mask o = true

/-- The operations of a mask that come before READ_MEMORY in the fixed order (44_syscall.md R83). -/
def opsBeforeReadMemory (e : Enc) (mask : Byte) : List SysOp :=
  [SysOp.openFile, SysOp.readCode].filter (e.requests mask)

/-- The operations of a mask that come before READ_CODE in the fixed order (44_syscall.md R83). -/
def opsBeforeReadCode (e : Enc) (mask : Byte) : List SysOp := [SysOp.openFile].filter (e.requests mask)

/-- The Memory column of 10_state.md R23: instruction `i` in state `s` may store to address `a`. A read-memory
stores from `B` on, at most `min(256 - B, C)` bytes, with B and C as the earlier operations left them. -/
def Instr.storesMem (i : Instr) (s : State) (a : Nat) : Prop :=
  match i with
  | .stk _ (.reg _) => a = (s.regs.s + 1).toNat
  | .stm addr _ => a = (s.readOperand addr).toNat
  | .sys mask ret =>
    s.cfg.enc.requests mask .readMemory = true ∧
    ∃ s1, runOps ret (opsBeforeReadMemory s.cfg.enc mask) s = .more s1 ∧
      s1.regs.b.toNat ≤ a ∧ a < s1.regs.b.toNat + s1.clampedLen
  | _ => False

/-- The CODE column of 10_state.md R23: instruction `i` in state `s` may write CODE at offset `a`. A read-code
writes from `3 * B` on, with B as the open of the same SYS left it. -/
def Instr.storesCode (i : Instr) (s : State) (a : Nat) : Prop :=
  match i with
  | .sys mask ret =>
    s.cfg.enc.requests mask .readCode = true ∧
    ∃ s1, runOps ret (opsBeforeReadCode s.cfg.enc mask) s = .more s1 ∧ s1.codeOffset ≤ a ∧ a < codeSize
  | _ => False

/-- The mask requests exactly the operation `o`. -/
def Enc.requestsOnly (e : Enc) (mask : Byte) (o : SysOp) : Prop :=
  ∀ o', e.requests mask o' = true ↔ o' = o

end Sys2Proof
end

