-- ==== Sys2Proof/Certificates/Slice0/Obligations.lean ====
section
/-! DEFINITION. The statements for the provers. Each docstring names the rules of spec/ it formalises. Where a
statement rests on a decision the spec marks as its own (92_eei_decisions.md), the docstring says so. -/

open Sys2Proof Sys2Proof.Machine

/-! ### Encoding -/

/-- 30_encoding.md R45, R47, R48, R52: under every valid encoding the decoder gives back every well-formed
instruction from its encoded slot, and a slot that decodes is the encoding of what it decodes to, which is well
formed. No operand byte is dropped. -/
def Obligations.DecodeEncodeAgree : Prop :=
  (∀ (e : Enc) (i : Instr), e.Valid → i.wellFormed e = true → decodeSlot e (encode e i) = .ok i) ∧
  (∀ (e : Enc) (slot : RawInstr) (i : Instr),
    decodeSlot e slot = .ok i → i.wellFormed e = true ∧ encode e i = slot)

/-- 30_encoding.md R43: splitting `n` bytes gives `floor(n / 3)` instructions, instruction `k` is bytes
`3k, 3k+1, 3k+2`, whatever the bytes are. -/
def Obligations.CodecSplitsInThrees : Prop :=
  ∀ bytes : List Byte,
    (splitSlots bytes).length = bytes.length / 3 ∧
    ∀ k, k < bytes.length / 3 →
      (splitSlots bytes)[k]? =
        some ⟨bytes.getD (3 * k) 0, bytes.getD (3 * k + 1) 0, bytes.getD (3 * k + 2) 0⟩

/-- 30_encoding.md R44 (its last law is the spec's own inference): joining puts each slot's fields in the order
opcode, arg1, arg2; joining a split gives the bytes without the last `len mod 3`; splitting a join gives the slots
back. -/
def Obligations.CodecRoundTrip : Prop :=
  (∀ slots : List RawInstr, joinSlots slots = (slots.map fun r => [r.op, r.a1, r.a2]).flatten) ∧
  (∀ bytes : List Byte,
    joinSlots (splitSlots bytes) = bytes.take (bytes.length - bytes.length % 3) ∧
    (bytes.length % 3 = 0 → joinSlots (splitSlots bytes) = bytes)) ∧
  (∀ slots : List RawInstr, splitSlots (joinSlots slots) = slots)

/-- spec/opcode_table.json and 92_eei_decisions.md D2: words of the table, written out, decode as the table says. -/
def Obligations.TableWordsDecode : Prop :=
  decodeTableWord 24 0x01012a = some (.imm (.reg .a) 0x2a) ∧
  decodeTableWord 24 0x020102 = some (.add (.reg .a) (.reg .b)) ∧
  decodeTableWord 24 0x040001 = some (.stk (.none 0) (.reg .a)) ∧
  decodeTableWord 24 0x400908 = some (.jmp 0x09 (.reg .d)) ∧
  decodeTableWord 24 0x801001 = some (.sys 0x10 (.reg .a)) ∧
  decodeTableWord 24 0x030102 = none

/-- 00_scope.md R11: a byte resolves to the register whose id it is, at most one, and otherwise to the sentinel; the
sentinel reads 0 and a write to it changes no state. -/
def Obligations.OperandResolution : Prop :=
  (∀ e : Enc, e.Valid → ∀ b : Byte,
    (∀ r, resolve e b = .reg r ↔ e.reg r = b) ∧
    ((∀ r, e.reg r ≠ b) → resolve e b = .none b) ∧
    (∀ r r', e.reg r = b → e.reg r' = b → r = r')) ∧
  (∀ (s : State) (raw v : Byte), s.readOperand (.none raw) = 0 ∧ s.writeOperand (.none raw) v = s)

/-- 10_state.md R13: a named register reads what was last written to it, and no register has an alias. -/
def Obligations.RegisterFileHoldsEightSlots : Prop :=
  ∀ (s : State) (o : Operand) (v : Byte),
    s.writeOperand o v = { s with regs := (s.writeOperand o v).regs } ∧
    ∀ o' : Operand, (s.writeOperand o v).readOperand o' =
      match o' with
      | .none _ => 0
      | .reg r => if o = .reg r then v else s.regs.get r

/-! ### The step -/

/-- 40_interpreter.md R59, R60, R61: a running machine whose fetch is in bounds increments I and then executes the
instruction its slot decodes to, in the state with the incremented I. -/
def Obligations.StepRunsDecodedInstruction : Prop :=
  ∀ (s : State) (i : Instr), s.run = .running → s.regs.i.toNat < s.codeLen →
    decodeSlot s.cfg.enc s.fetchSlot = .ok i →
    step s = exec i { s with regs := { s.regs with i := s.regs.i + 1 } }

/-- 40_interpreter.md R60: the whole opcode byte of the fetched slot selects the handler, for every valid encoding,
and a byte that is no opcode selects none. The fetch reads CODE bytes `3k`, `3k+1`, `3k+2` and I is incremented
first. -/
def Obligations.DispatchSelectsTheHandler : Prop :=
  ∀ (s : State) (op a1 a2 : Byte), s.cfg.enc.Valid → s.run = .running → s.regs.i.toNat < s.codeLen →
    op = s.code.read (3 * s.regs.i.toNat) → a1 = s.code.read (3 * s.regs.i.toNat + 1) →
    a2 = s.code.read (3 * s.regs.i.toNat + 2) →
    let e := s.cfg.enc
    let s' : State := { s with regs := { s.regs with i := s.regs.i + 1 } }
    (op = e.op .imm → step s = exec (.imm (resolve e a1) a2) s') ∧
    (op = e.op .add → step s = exec (.add (resolve e a1) (resolve e a2)) s') ∧
    (op = e.op .stk → step s = exec (.stk (resolve e a1) (resolve e a2)) s') ∧
    (op = e.op .stm → step s = exec (.stm (resolve e a1) (resolve e a2)) s') ∧
    (op = e.op .ldm → step s = exec (.ldm (resolve e a1) (resolve e a2)) s') ∧
    (op = e.op .cmp → step s = exec (.cmp (resolve e a1) (resolve e a2)) s') ∧
    (op = e.op .jmp → step s = exec (.jmp a1 (resolve e a2)) s') ∧
    (op = e.op .sys → step s = exec (.sys a1 (resolve e a2)) s') ∧
    ((∀ o, op ≠ e.op o) → step s = .next s')

/-- 40_interpreter.md R62: an unrecognized opcode makes no state change beyond the increment of I, raises no error
and emits no trace event, whatever its operand bytes. -/
def Obligations.UnrecognizedOpcodeIsIgnored : Prop :=
  ∀ s : State, s.run = .running → s.regs.i.toNat < s.codeLen →
    (∀ o, s.cfg.enc.op o ≠ s.code.read (3 * s.regs.i.toNat)) →
    step s = .next { s with regs := { s.regs with i := s.regs.i + 1 } }

/-- 40_interpreter.md R58, 60_exceptions.md R101, R102 (the place of the check is the spec's decision D20): a fetch
with `I >= code_len` enters FATAL with the index, and nothing else changes, I included. With `code_len = 256` it
cannot happen. -/
def Obligations.FetchOutOfBoundsIsFatal : Prop :=
  (∀ s : State, s.run = .running → s.codeLen ≤ s.regs.i.toNat →
    step s = .next { s with run := .fatal (.fetchOutOfBounds s.regs.i) }) ∧
  (∀ s : State, s.codeLen = 256 → s.regs.i.toNat < s.codeLen)

/-- 40_interpreter.md R63 (the frozen terminal state is the spec's decision D19): EXITED and FATAL take no step.
That the step answers a fault there is the model's choice, log entry 6. -/
def Obligations.TerminalStatesTakeNoStep : Prop :=
  ∀ s : State, s.run ≠ .running → step s = .fault (.halted s.run)

/-! ### IMM and ADD -/

/-- 41_imm_add.md R65: IMM writes the immediate to the destination register, and to nothing where it is NONE; no
other register, no flag, no byte of memory and no other state changes. The encoding is the opcode byte, the
register byte, the raw immediate. -/
def Obligations.ImmResult : Prop :=
  (∀ (e : Enc) (a1 a2 : Byte), e.Valid →
    decodeSlot e ⟨e.op .imm, a1, a2⟩ = .ok (.imm (resolve e a1) a2)) ∧
  (∀ (r1 : Operand) (a2 : Byte) (s : State), ∃ t, exec (.imm r1 a2) s = .next t ∧
    t = { s with regs := t.regs } ∧ (∀ a, t.mem.read a = s.mem.read a) ∧
    ∀ r, t.regs.get r = if r1 = .reg r then a2 else s.regs.get r)

/-- 41_imm_add.md R66: ADD writes the sum modulo 256 of both operands to the first, reading both before the write;
NONE reads 0 and is not written; no flag and no other state changes. -/
def Obligations.AddResult : Prop :=
  (∀ (e : Enc) (a1 a2 : Byte), e.Valid →
    decodeSlot e ⟨e.op .add, a1, a2⟩ = .ok (.add (resolve e a1) (resolve e a2))) ∧
  (∀ (r1 r2 : Operand) (s : State), ∃ t, exec (.add r1 r2) s = .next t ∧
    t = { s with regs := t.regs } ∧ (∀ a, t.mem.read a = s.mem.read a) ∧
    ∀ r, (t.regs.get r).toNat =
      if r1 = .reg r then ((s.readOperand r1).toNat + (s.readOperand r2).toNat) % 256
      else (s.regs.get r).toNat)

/-! ### STK, STM and LDM -/

/-- 42_stack_memory.md R69 (that each statement sees the writes before it is the spec's decision D34): all forms of
STK. A push stores at `S + 1` the source as it is after the increment; a pop reads at the S that is there then and
decrements S as it is after the load. Canonical memory is an invariant of every run (EveryStepKeepsInvariant). -/
def Obligations.StkResult : Prop :=
  ∀ (pop push : Operand) (s : State), s.mem.wf →
    let up := s.regs.s + 1
    let pushed : Option Byte :=
      match push with
      | .reg r => some (if r = .s then up else s.regs.get r)
      | .none _ => none
    let sp := if pushed.isSome then up else s.regs.s
    let top := pushed.getD (s.mem.read s.regs.s.toNat)
    ∃ t, exec (.stk pop push) s = .next t ∧
      t = { s with regs := t.regs, mem := t.mem } ∧
      (∀ a, t.mem.read a = if a = up.toNat ∧ pushed.isSome then top else s.mem.read a) ∧
      (∀ r, t.regs.get r =
        match pop with
        | .none _ => if r = .s then sp else s.regs.get r
        | .reg dst =>
          if r = .s then (if dst = .s then top - 1 else sp - 1)
          else if r = dst then top else s.regs.get r)

/-- 42_stack_memory.md R73 (the spec's own inference from R69): the stack grows upward and S points at the last
byte pushed, so a push followed by a pop gives the byte back and restores S. -/
def Obligations.PushThenPopGivesTheByteBack : Prop :=
  ∀ (src dst : Reg) (x y : Byte) (s : State), s.mem.wf → src ≠ .s → dst ≠ .s →
    ∃ t u, exec (.stk (.none x) (.reg src)) s = .next t ∧ exec (.stk (.reg dst) (.none y)) t = .next u ∧
      t.regs.s = s.regs.s + 1 ∧ t.mem.read t.regs.s.toNat = s.regs.get src ∧
      u.regs.get dst = s.regs.get src ∧ u.regs.s = s.regs.s ∧ u.mem = t.mem

/-- 42_stack_memory.md R70: STM stores the value operand at the address operand; NONE is address 0 or value 0; every
other byte, every register and all other state is unchanged. -/
def Obligations.StmResult : Prop :=
  (∀ (e : Enc) (a1 a2 : Byte), e.Valid →
    decodeSlot e ⟨e.op .stm, a1, a2⟩ = .ok (.stm (resolve e a1) (resolve e a2))) ∧
  (∀ (addr value : Operand) (s : State), s.mem.wf → ∃ t, exec (.stm addr value) s = .next t ∧
    t = { s with mem := t.mem } ∧
    ∀ a, t.mem.read a = if a = (s.readOperand addr).toNat then s.readOperand value else s.mem.read a)

/-- 42_stack_memory.md R71: LDM loads the byte at the address operand into the destination; NONE is address 0, or
discards the byte; no byte of memory and no other state changes. -/
def Obligations.LdmResult : Prop :=
  (∀ (e : Enc) (a1 a2 : Byte), e.Valid →
    decodeSlot e ⟨e.op .ldm, a1, a2⟩ = .ok (.ldm (resolve e a1) (resolve e a2))) ∧
  (∀ (rd addr : Operand) (s : State), ∃ t, exec (.ldm rd addr) s = .next t ∧
    t = { s with regs := t.regs } ∧ (∀ a, t.mem.read a = s.mem.read a) ∧
    ∀ r, t.regs.get r = if rd = .reg r then s.mem.read (s.readOperand addr).toNat else s.regs.get r)

/-- 20_memory.md R31: no Memory address fault and no wrap of a bulk range. STK, STM and LDM always succeed, S moves
modulo 256, a path stops at address 255, and a read-memory or write never passes byte 255. -/
def Obligations.NoAddressFaultAndNoWrap : Prop :=
  (∀ (r1 r2 : Operand) (s : State),
    (∃ t, exec (.stk r1 r2) s = .next t) ∧ (∃ t, exec (.stm r1 r2) s = .next t) ∧
    (∃ t, exec (.ldm r1 r2) s = .next t)) ∧
  (∀ (r : Reg) (raw : Byte) (s : State),
    (∃ t, exec (.stk (.none raw) (.reg r)) s = .next t ∧
      t.regs.s.toNat = (s.regs.s.toNat + 1) % 256) ∧
    (r ≠ .s → ∃ t, exec (.stk (.reg r) (.none raw)) s = .next t ∧
      t.regs.s.toNat = (s.regs.s.toNat + 255) % 256)) ∧
  (∀ s : State,
    (∃ path, s.sysRequest .openFile = .openFile path ∧ s.regs.a.toNat + path.length ≤ 256) ∧
    (∃ n, s.sysRequest .readMemory = .read s.regs.a n ∧
      n = min (256 - s.regs.b.toNat) s.regs.c.toNat ∧ s.regs.b.toNat + n ≤ 256) ∧
    (∃ bytes, s.sysRequest .write = .write s.regs.a bytes ∧
      bytes.length = min (256 - s.regs.b.toNat) s.regs.c.toNat ∧ s.regs.b.toNat + bytes.length ≤ 256))

/-- 20_memory.md R38 (sequential consistency is the spec's decision D21): a read of a byte gives the last value
written to it, or 0 where nothing was written, and every write keeps the canonical form the statement assumes. -/
def Obligations.MemoryReadsTheLastWrite : Prop :=
  (∀ (m : Memory) (a b : Nat) (v : Byte), m.wf →
    (m.write a v).wf ∧ (m.write a v).read b = if b = a then v else m.read b) ∧
  (∀ a, State.reset.mem.read a = 0)

/-- 20_memory.md R28: the two address spaces are separate. STK, STM and LDM neither write CODE nor depend on it; the
fetch does not depend on M; CODE changes only through a SYS that requests read-code. -/
def Obligations.CodeAndMemoryAreSeparate : Prop :=
  (∀ (i : Instr) (s t : State) (c : Memory), i.opc = .stk ∨ i.opc = .stm ∨ i.opc = .ldm →
    exec i s = .next t → t.code = s.code ∧ exec i { s with code := c } = .next { t with code := c }) ∧
  (∀ (s : State) (m : Memory), ({ s with mem := m }).fetchSlot = s.fetchSlot) ∧
  (∀ (i : Instr) (s t : State), exec i s = .next t → t.code ≠ s.code →
    ∃ mask ret, i = .sys mask ret ∧ s.cfg.enc.requests mask .readCode = true)

/-! ### CMP and JMP -/

/-- 10_state.md R18: CMP sets each of the five flags exactly as listed, whatever the bits' positions, writes 0 to
the three bits that carry no flag, and no history enters. F is 0 at reset. No other instruction changes F unless F
is its destination. -/
def Obligations.FlagsComeFromTheCompareAlone : Prop :=
  (∀ (r1 r2 : Operand) (s : State), s.cfg.enc.Valid → ∃ t, exec (.cmp r1 r2) s = .next t ∧
    let e := s.cfg.enc
    let u := (s.readOperand r1).toNat
    let v := (s.readOperand r2).toNat
    ((t.regs.f &&& e.flag .l ≠ 0 ↔ u < v) ∧
    (t.regs.f &&& e.flag .g ≠ 0 ↔ u > v) ∧
    (t.regs.f &&& e.flag .e ≠ 0 ↔ u = v) ∧
    (t.regs.f &&& e.flag .n ≠ 0 ↔ u ≠ v) ∧
    (t.regs.f &&& e.flag .z ≠ 0 ↔ u = 0 ∧ v = 0)) ∧
    t.regs.f &&& ~~~(e.flag .l ||| e.flag .g ||| e.flag .e ||| e.flag .n ||| e.flag .z) = 0) ∧
  State.reset.regs.f = 0 ∧
  (∀ (i : Instr) (s t : State), i.opc ≠ .cmp → ¬ i.writesReg s .f → exec i s = .next t →
    t.regs.f = s.regs.f)

/-- 43_compare_jump.md R74, R75 (the place of the trace event is the spec's decision D17): CMP replaces F by one of
the four values, comparing the values read before the write as unsigned, emits one event with the new F, and changes
nothing else. -/
def Obligations.CmpResult : Prop :=
  ∀ (r1 r2 : Operand) (s : State), ∃ t, exec (.cmp r1 r2) s = .next t ∧
    t = { s with regs := t.regs, trace := s.trace ++ [⟨.cmp, t.regs, s.mem⟩] } ∧
    (∀ a, t.mem.read a = s.mem.read a) ∧
    ∀ r, t.regs.get r =
      if r = .f then
        let e := s.cfg.enc
        let u := (s.readOperand r1).toNat
        let v := (s.readOperand r2).toNat
        if u < v then e.flag .l ||| e.flag .n
        else if v < u then e.flag .g ||| e.flag .n
        else if u = 0 then e.flag .e ||| e.flag .z
        else e.flag .e
      else s.regs.get r

/-- 43_compare_jump.md R76 (that the test sees bits of F outside the five flags is the spec's decision D28): a JMP
with mask 0 or a mask that shares a bit with F sets I to the target operand, otherwise nothing changes; F and all
other state is unchanged. -/
def Obligations.JmpResult : Prop :=
  ∀ (mask : Byte) (target : Operand) (s : State), ∃ t, exec (.jmp mask target) s = .next t ∧
    t = { s with regs := t.regs } ∧ (∀ a, t.mem.read a = s.mem.read a) ∧
    ∀ r, t.regs.get r =
      if r = .i ∧ (mask = 0 ∨ mask &&& s.regs.f ≠ 0) then s.readOperand target else s.regs.get r

/-! ### SYS: each operation alone -/

/-- 44_syscall.md R97 (the spec's own inference; the event is D17): a SYS that requests nothing makes no host
request, writes no register, and still emits its trace event. -/
def Obligations.SysRequestingNothingOnlyTraces : Prop :=
  ∀ (mask : Byte) (ret : Operand) (s : State), (∀ o, s.cfg.enc.requests mask o = false) →
    exec (.sys mask ret) s =
      .next { s with sysPhase := .idle, trace := s.trace ++ [⟨.sys, s.regs, s.mem⟩] }

/-- 44_syscall.md R85, R95 (the reduction modulo 256 is D13): a SYS that requests only OPEN, answered with handle
`h`, writes `h mod 256` to the return register. -/
def Obligations.SysOpenResult : Prop :=
  ∀ (mask : Byte) (ret : Operand) (s : State) (h : Nat), s.cfg.enc.requestsOnly mask .openFile →
    s.hostAnswer (.openFile (pathAt s.mem s.regs.a)) = some (.handle h) →
    ∃ t, exec (.sys mask ret) s = .next t ∧
      t = { s with
        regs := t.regs
        sysPhase := .idle
        history := s.history ++ [⟨.openFile (pathAt s.mem s.regs.a), some (.handle h)⟩]
        trace := s.trace ++ [⟨.sys, t.regs, s.mem⟩]
        hostScript := s.hostAdvance.hostScript
        hostDraws := s.hostAdvance.hostDraws } ∧
      ∀ r, (t.regs.get r).toNat = if ret = .reg r then h % 256 else (s.regs.get r).toNat

/-- 44_syscall.md R86 (D16): the open path is the bytes of M from A up to the first NUL at or after A, or up to the
end of Memory; it never wraps. -/
def Obligations.OpenPathEndsAtNulOrEndOfMemory : Prop :=
  ∀ (m : Memory) (a : Byte), ∃ e, a.toNat ≤ e ∧ e ≤ 256 ∧ (e < 256 → m.read e = 0) ∧
    (∀ k, a.toNat ≤ k → k < e → m.read k ≠ 0) ∧
    (pathAt m a).length = e - a.toNat ∧
    ∀ j, j < e - a.toNat → (pathAt m a)[j]? = some (m.read (a.toNat + j))

/-- 44_syscall.md R87, R88 (offset, bound, reduction and bound policy are D10, D11, D13, D5): a SYS that requests
only READ_CODE asks for up to `768 - 3B` bytes from the handle in A, stores the answered bytes in CODE from `3B` on,
moves `code_len` only under Extend, and writes the count modulo 256 to the return register. Canonical CODE is an
invariant of every run. -/
def Obligations.SysReadCodeResult : Prop :=
  ∀ (mask : Byte) (ret : Operand) (s : State) (d : List Byte), s.code.wf →
    s.cfg.enc.requestsOnly mask .readCode → d.length ≤ 768 - 3 * s.regs.b.toNat →
    s.hostAnswer (.read s.regs.a (768 - 3 * s.regs.b.toNat)) = some (.data d) →
    ∃ t, exec (.sys mask ret) s = .next t ∧
      t = { s with
        regs := t.regs
        code := t.code
        codeLen := if s.cfg.policy = .extend then max s.codeLen (s.regs.b.toNat + d.length / 3) else s.codeLen
        sysPhase := .idle
        history := s.history ++ [⟨.read s.regs.a (768 - 3 * s.regs.b.toNat), some (.data d)⟩]
        trace := s.trace ++ [⟨.sys, t.regs, s.mem⟩]
        hostScript := s.hostAdvance.hostScript
        hostDraws := s.hostAdvance.hostDraws } ∧
      (∀ a, t.code.read a =
        if 3 * s.regs.b.toNat ≤ a ∧ a < 3 * s.regs.b.toNat + d.length then d.getD (a - 3 * s.regs.b.toNat) 0
        else s.code.read a) ∧
      ∀ r, (t.regs.get r).toNat = if ret = .reg r then d.length % 256 else (s.regs.get r).toNat

/-- 44_syscall.md R89 (that a length of 0 is still requested is D33): a SYS that requests only READ_MEMORY asks for
`min(256 - B, C)` bytes from the handle in A, stores the answered bytes in M from B on and no other byte, and writes
the count to the return register. -/
def Obligations.SysReadMemoryResult : Prop :=
  ∀ (mask : Byte) (ret : Operand) (s : State) (d : List Byte), s.mem.wf →
    s.cfg.enc.requestsOnly mask .readMemory → d.length ≤ min (256 - s.regs.b.toNat) s.regs.c.toNat →
    s.hostAnswer (.read s.regs.a (min (256 - s.regs.b.toNat) s.regs.c.toNat)) = some (.data d) →
    ∃ t, exec (.sys mask ret) s = .next t ∧
      t = { s with
        regs := t.regs
        mem := t.mem
        sysPhase := .idle
        history := s.history ++
          [⟨.read s.regs.a (min (256 - s.regs.b.toNat) s.regs.c.toNat), some (.data d)⟩]
        trace := s.trace ++ [⟨.sys, t.regs, t.mem⟩]
        hostScript := s.hostAdvance.hostScript
        hostDraws := s.hostAdvance.hostDraws } ∧
      (∀ a, t.mem.read a =
        if s.regs.b.toNat ≤ a ∧ a < s.regs.b.toNat + d.length then d.getD (a - s.regs.b.toNat) 0
        else s.mem.read a) ∧
      ∀ r, (t.regs.get r).toNat = if ret = .reg r then d.length else (s.regs.get r).toNat

/-- 44_syscall.md R90 (the descriptor is D12, the length 0 is D33): a SYS that requests only WRITE sends the
`min(256 - B, C)` bytes of M from B on, in increasing address order, to the handle in A, and writes the answered
count to the return register. -/
def Obligations.SysWriteResult : Prop :=
  ∀ (mask : Byte) (ret : Operand) (s : State) (w : Nat) (bytes : List Byte),
    s.cfg.enc.requestsOnly mask .write →
    bytes.length = min (256 - s.regs.b.toNat) s.regs.c.toNat →
    (∀ j, j < bytes.length → bytes[j]? = some (s.mem.read (s.regs.b.toNat + j))) →
    w ≤ bytes.length → s.hostAnswer (.write s.regs.a bytes) = some (.count w) →
    ∃ t, exec (.sys mask ret) s = .next t ∧
      t = { s with
        regs := t.regs
        sysPhase := .idle
        history := s.history ++ [⟨.write s.regs.a bytes, some (.count w)⟩]
        trace := s.trace ++ [⟨.sys, t.regs, s.mem⟩]
        hostScript := s.hostAdvance.hostScript
        hostDraws := s.hostAdvance.hostDraws } ∧
      ∀ r, (t.regs.get r).toNat = if ret = .reg r then w else (s.regs.get r).toNat

/-- 44_syscall.md R91, 60_exceptions.md R110 (the duration is not modelled, D24): a SYS that requests only SLEEP,
answered Done, writes 0 to the return register; all other state survives the wait. -/
def Obligations.SysSleepResult : Prop :=
  ∀ (mask : Byte) (ret : Operand) (s : State), s.cfg.enc.requestsOnly mask .sleep →
    s.hostAnswer (.sleep s.regs.a) = some .done →
    ∃ t, exec (.sys mask ret) s = .next t ∧
      t = { s with
        regs := t.regs
        sysPhase := .idle
        history := s.history ++ [⟨.sleep s.regs.a, some .done⟩]
        trace := s.trace ++ [⟨.sys, t.regs, s.mem⟩]
        hostScript := s.hostAdvance.hostScript
        hostDraws := s.hostAdvance.hostDraws } ∧
      ∀ r, t.regs.get r = if ret = .reg r then 0 else s.regs.get r

/-- 44_syscall.md R92 (that the code is A as the earlier operations left it is D30; that the sequencer's phase stays
EXIT is the model's choice, log entry 7): a SYS with the EXIT bit, once its other operations have completed, sends
the exit request with A and enters EXITED with A; the return register is not written and no event is emitted. -/
def Obligations.SysExitEndsTheRun : Prop :=
  ∀ (mask : Byte) (ret : Operand) (s s1 : State) (pre : List SysOp),
    requestedOps s.cfg.enc mask = pre ++ [.exit] → runOps ret pre s = .more s1 →
    exec (.sys mask ret) s =
      .next { s1 with
        sysPhase := .active .exit
        history := s1.history ++ [⟨.exit s1.regs.a, none⟩]
        run := .exited s1.regs.a }

/-! ### SYS: several operations, errors, the host -/

/-- 44_syscall.md R93: an `Err` to open, read-code, read-memory or write enters `FATAL(HostIoError(op))`; the state
stays as the earlier sub-operations left it (but for the request now in the history), no result is written, no later
sub-operation runs, no event is emitted. SLEEP and EXIT cannot fail. Nothing is said of the phase shown after the
stop, nor of the model's own two host fields. -/
def Obligations.HostErrorIsFatal : Prop :=
  (∀ (mask : Byte) (ret : Operand) (s s1 : State) (op : IoOp) (pre post : List SysOp),
    requestedOps s.cfg.enc mask = pre ++ op.sysOp :: post → runOps ret pre s = .more s1 →
    s1.hostAnswer (s1.sysRequest op.sysOp) = some .err →
    ∃ t, exec (.sys mask ret) s = .next t ∧
      t = { s1 with
        run := .fatal (.hostIoError op)
        history := s1.history ++ [⟨s1.sysRequest op.sysOp, some .err⟩]
        sysPhase := t.sysPhase
        hostScript := t.hostScript
        hostDraws := t.hostDraws }) ∧
  (∀ (ret : Operand) (s t : State), runOp ret .sleep s ≠ .ended t) ∧
  (∀ (ret : Operand) (s t : State), runOp ret .exit s = .ended t → t.run = .exited s.regs.a)

/-- 44_syscall.md R81 and 93_implementation_defined.md H1, H2: where the host never answers the next request, or
answers outside its bounds, the block is stuck in that phase. The two faults are the model's own, log entry 5. -/
def Obligations.HostBreachLeavesTheBlockStuck : Prop :=
  ∀ (mask : Byte) (ret : Operand) (s s1 : State) (o : SysOp) (pre post : List SysOp),
    requestedOps s.cfg.enc mask = pre ++ o :: post → runOps ret pre s = .more s1 → o ≠ .exit →
    (s1.hostAnswer (s1.sysRequest o) = none →
      exec (.sys mask ret) s = .fault (.hostSilent (.active o))) ∧
    (∀ resp, s1.hostAnswer (s1.sysRequest o) = some resp → (s1.sysRequest o).allows resp = false →
      exec (.sys mask ret) s = .fault (.hostBreach (.active o)))

/-- 44_syscall.md R79 to R81 (that an answer inside its bounds is a free draw and one outside has no move is the
spec's decision D14; that the answers come from a script or, where it is empty, from free values is log entry 3, and
the two faults are log entry 5): no SYS, whatever its mask, stops with a dutiful host. With nothing scripted it always
answers a next state. With any script, where it answers none it is a fault that some requested operation raised, after
the ones before it completed, because its request got no answer or an answer outside its bounds. Where it answers
one, the machine goes on, or its run has ended by the exit or by a host error. -/
def Obligations.SysCompletesForEveryDutifulHost : Prop :=
  ∀ (mask : Byte) (ret : Operand) (s : State),
    (s.hostScript = [] → ∃ t, exec (.sys mask ret) s = .next t) ∧
    (∀ f, exec (.sys mask ret) s = .fault f →
      ∃ pre o post s1, requestedOps s.cfg.enc mask = pre ++ o :: post ∧ runOps ret pre s = .more s1 ∧ o ≠ .exit ∧
        ((s1.hostAnswer (s1.sysRequest o) = none ∧ f = .hostSilent (.active o)) ∨
         ∃ resp, s1.hostAnswer (s1.sysRequest o) = some resp ∧ (s1.sysRequest o).allows resp = false ∧
          f = .hostBreach (.active o))) ∧
    (∀ r, exec (.sys mask ret) s ≠ .refused r) ∧
    (∀ t, s.run = .running → exec (.sys mask ret) s = .next t →
      t.run = .running ∨ (∃ code, t.run = .exited code ∧ s.cfg.enc.requests mask .exit = true) ∨
        ∃ op : IoOp, t.run = .fatal (.hostIoError op) ∧ s.cfg.enc.requests mask op.sysOp = true)

/-- 44_syscall.md R83, R84 (that later operations see the earlier ones' writes is D8): a SYS whose requested
operations are those of `m1` and then those of `m2` does what the SYS of `m1` does, and, if the run goes on, what
the SYS of `m2` does from there, without the trace event in between. Which operations a mask requests, and their
order, is stated in SysMaskBitsWithoutOperationAreIgnored. -/
def Obligations.SysIsItsOperationsInOrder : Prop :=
  ∀ (m m1 m2 : Byte) (ret : Operand) (s : State), s.run = .running →
    requestedOps s.cfg.enc m = requestedOps s.cfg.enc m1 ++ requestedOps s.cfg.enc m2 →
    match exec (.sys m1 ret) s with
    | .next t =>
      if t.run = .running then exec (.sys m ret) s = exec (.sys m2 ret) { t with trace := s.trace }
      else exec (.sys m ret) s = .next t
    | .fault f => exec (.sys m ret) s = .fault f
    | .refused _ => False

/-- 44_syscall.md R82, R83, R96 (the order is the spec's decision D8, the ignored bits are D9): under any encoding
the operations a mask requests stand in the fixed order OPEN, READ_CODE, READ_MEMORY, WRITE, SLEEP, EXIT, and are
those whose bit is set in the mask; under a valid encoding the bits that name no operation change nothing. -/
def Obligations.SysMaskBitsWithoutOperationAreIgnored : Prop :=
  (∀ (e : Enc) (mask : Byte), requestedOps e mask =
    [SysOp.openFile, .readCode, .readMemory, .write, .sleep, .exit].filter fun o => mask &&& e.sys o != 0) ∧
  ∀ (mask : Byte) (ret : Operand) (s : State), s.cfg.enc.Valid →
    let all := s.cfg.enc.sys .openFile ||| s.cfg.enc.sys .readCode ||| s.cfg.enc.sys .readMemory |||
      s.cfg.enc.sys .write ||| s.cfg.enc.sys .sleep ||| s.cfg.enc.sys .exit
    exec (.sys mask ret) s = exec (.sys (mask &&& all) ret) s ∧
    exec (.sys (mask &&& ~~~all) ret) s =
      .next { s with sysPhase := .idle, trace := s.trace ++ [⟨.sys, s.regs, s.mem⟩] }

/-- 44_syscall.md R84: the return register is the only register a SYS writes, and with the sentinel it writes none.
That a SYS of EXIT alone writes none, its return register included, is the spec's decision D30 (44_syscall.md R92, log
entry 13). -/
def Obligations.SysWritesOnlyTheReturnRegister : Prop :=
  ∀ (mask : Byte) (ret : Operand) (s t : State), exec (.sys mask ret) s = .next t →
    (∀ r, ret ≠ .reg r → t.regs.get r = s.regs.get r) ∧
    (∀ raw, ret = .none raw → t.regs = s.regs) ∧
    (s.cfg.enc.requestsOnly mask .exit → t.regs = s.regs)

/-- 44_syscall.md R79, R82 (that each operation runs in the state the ones before left is D8): the history only
grows, for no instruction but SYS at all, and by a SYS with one transaction for each operation it runs. The operations
run are a first part of the requested ones, in their order: the transaction number `j` is the request of operation
number `j`, in the state the `j` before it left, with the host's answer there (`transactionOf`, EXIT has none). If the machine is
running after the SYS, all its requested operations ran and each succeeded. If not, the ones run are those that
completed, each of which succeeded, and the one that ended the run. -/
def Obligations.HostHistoryRecordsEachRequest : Prop :=
  ∀ (i : Instr) (s t : State), s.run = .running → exec i s = .next t →
    ∃ ts, t.history = s.history ++ ts ∧
      match i with
      | .sys mask ret =>
        ∃ ran rest, requestedOps s.cfg.enc mask = ran ++ rest ∧ ts.length = ran.length ∧
          (∀ j o, ran[j]? = some o → ∃ u, runOps ret (ran.take j) s = .more u ∧
            ts[j]? = some (u.transactionOf o)) ∧
          (t.run = .running → rest = [] ∧ ∀ x ∈ ts, x.succeeded = true) ∧
          (t.run ≠ .running → ∃ done last u, ran = done ++ [last] ∧ runOps ret done s = .more u ∧
            runOp ret last u = .ended t ∧ (∀ x ∈ ts.take done.length, x.succeeded = true) ∧
            ∀ x, ts.getLast? = some x → x.succeeded = false)
      | _ => ts = []

/-- 20_memory.md R41, 70_reset_and_hazards.md R120 (D4): the slot a read-code has just rewritten whole is what the
next fetch reads, if I points at it. -/
def Obligations.ReadCodeIsSeenByTheNextFetch : Prop :=
  ∀ (mask : Byte) (ret : Operand) (s : State) (d : List Byte), s.code.wf →
    s.cfg.enc.requestsOnly mask .readCode → d.length ≤ 768 - 3 * s.regs.b.toNat →
    s.hostAnswer (.read s.regs.a (768 - 3 * s.regs.b.toNat)) = some (.data d) →
    ∃ t, exec (.sys mask ret) s = .next t ∧
      ∀ k, t.regs.i.toNat = s.regs.b.toNat + k → 3 * k + 3 ≤ d.length →
        t.fetchSlot = ⟨d.getD (3 * k) 0, d.getD (3 * k + 1) 0, d.getD (3 * k + 2) 0⟩

/-- 10_state.md R19, 44_syscall.md R88 (D5): under Fixed no step moves the fetch bound; under Extend no step lowers
it, and only a SYS that requests read-code raises it. -/
def Obligations.FetchBoundFollowsThePolicy : Prop :=
  ∀ s t : State, step s = .next t →
    (s.cfg.policy = .fixed → t.codeLen = s.codeLen) ∧ s.codeLen ≤ t.codeLen ∧
    (t.codeLen ≠ s.codeLen → ∃ mask ret, decodeSlot s.cfg.enc s.fetchSlot = .ok (.sys mask ret) ∧
      s.cfg.enc.requests mask .readCode = true)

/-! ### Rules of the whole machine -/

/-- 10_state.md R23, R17 (that F, I and S are ordinary destinations is D7): what each instruction leaves unchanged. A
register is unchanged unless the register column names it, a byte of M unless the Memory column does, a byte of CODE
unless the CODE column does; `code_len` moves only by a read-code under Extend; the parameters never change; the
control state, the history and the host's own fields move only by a SYS, the trace only by a CMP or a SYS. The ranges
of a SYS are those of 44_syscall.md R87 and R89, at the A, B and C that the operations before it in the order of R83
left (the spec's decision D8), with the offset `3 * B` of a read-code taken without an 8-bit wrap (D10); both are in
log entry 13. -/
def Obligations.WriteMatrixIsTheFrame : Prop :=
  ∀ (i : Instr) (s t : State), exec i s = .next t →
    (∀ r, ¬ i.writesReg s r → t.regs.get r = s.regs.get r) ∧
    (∀ a, ¬ i.storesMem s a → t.mem.read a = s.mem.read a) ∧
    (∀ a, ¬ i.storesCode s a → t.code.read a = s.code.read a) ∧
    (t.codeLen = s.codeLen ∨ (s.cfg.policy = .extend ∧
      ∃ mask ret, i = .sys mask ret ∧ s.cfg.enc.requests mask .readCode = true)) ∧
    t.cfg = s.cfg ∧
    (i.isSys = false → t.run = s.run ∧ t.sysPhase = s.sysPhase ∧ t.history = s.history ∧
      t.hostScript = s.hostScript ∧ t.hostDraws = s.hostDraws) ∧
    (i.isSys = false → i.opc ≠ .cmp → t.trace = s.trace)

/-- 60_exceptions.md R100: nothing but a SYS or an out-of-bounds fetch can be an error. Every other instruction, with
any operands, answers a next state with the control state unchanged. -/
def Obligations.OnlySysCanEndTheRun : Prop :=
  ∀ (i : Instr) (s : State), i.isSys = false → ∃ t, exec i s = .next t ∧ t.run = s.run

/-- 40_interpreter.md R57, 60_exceptions.md R98, R103: the only ways out of RUNNING. A step ends the run by an
out-of-bounds fetch, by a SYS with the EXIT bit with the code in A, or by a SYS whose open, read-code, read-memory or
write got `Err` as its last answer. -/
def Obligations.WaysOutOfRunning : Prop :=
  ∀ s t : State, s.run = .running → step s = .next t →
    t.run = .running ∨
    (s.codeLen ≤ s.regs.i.toNat ∧ t.run = .fatal (.fetchOutOfBounds s.regs.i)) ∨
    ∃ mask ret, s.regs.i.toNat < s.codeLen ∧ decodeSlot s.cfg.enc s.fetchSlot = .ok (.sys mask ret) ∧
      ((s.cfg.enc.requests mask .exit = true ∧ t.run = .exited t.regs.a) ∨
       ∃ op : IoOp, s.cfg.enc.requests mask op.sysOp = true ∧ t.run = .fatal (.hostIoError op) ∧
        ∃ req, t.history.getLast? = some ⟨req, some .err⟩)

/-- 60_exceptions.md R108 (the place of the event in the instruction is the spec's decision D17): one event for each
CMP, with the state after it; one for each SYS after which the machine is running; none for any other step. -/
def Obligations.TraceEventsAreThoseOfCmpAndSys : Prop :=
  ∀ s t : State, s.run = .running → step s = .next t →
    t.trace = s.trace ++
      (if s.regs.i.toNat < s.codeLen then
        match decodeSlot s.cfg.enc s.fetchSlot with
        | .ok (.cmp _ _) => [⟨.cmp, t.regs, t.mem⟩]
        | .ok (.sys _ _) => if t.run = .running then [⟨.sys, t.regs, t.mem⟩] else []
        | _ => []
      else [])

/-- 10_state.md R26: the trace is never read back. A machine whose trace alone was different takes the same step,
appends the same events and differs in nothing else. -/
def Obligations.TraceIsNeverReadBack : Prop :=
  ∀ (s : State) (tr : List TraceEvent),
    (∀ t, step s = .next t → ∃ evs, t.trace = s.trace ++ evs ∧
      step { s with trace := tr } = .next { t with trace := tr ++ evs }) ∧
    (∀ f, step s = .fault f → step { s with trace := tr } = .fault f)

/-- The shape of the state in every run (10_state.md R19, R21, R22, R25, 44_syscall.md R79): from any state that has
it, a step gives a state that has it. -/
def Obligations.EveryStepKeepsInvariant : Prop :=
  ∀ s t : State, s.Inv → step s = .next t → t.Inv

/-- 40_interpreter.md R57, R64, 60_exceptions.md R98: the control state always agrees with the host history, and
every step keeps that. -/
def Obligations.ControlStateMatchesHistory : Prop :=
  ∀ s t : State, s.RunMatchesHistory → step s = .next t → t.RunMatchesHistory

/-- 00_scope.md R6, R7: the parameters are fixed for the machine. -/
def Obligations.NoStepChangesTheParameters : Prop :=
  ∀ s t : State, step s = .next t → t.cfg = s.cfg

/-! ### Reset, load and status -/

/-- 70_reset_and_hazards.md R113 for the load of no bytes: every register and M are 0, `code_len` is 0, the machine is
running with an idle sequencer and empty outputs. That every byte of CODE, being beyond the loaded ones, reads 0 is the
spec's decision D6, not in its source (log entries 12, 13). The parameters and the two host fields at reset are the
model's choice, log entries 1, 2 and 4, and nothing is said of them here. -/
def Obligations.ResetState : Prop :=
  (∀ r, State.reset.regs.get r = 0) ∧ (∀ a, State.reset.mem.read a = 0) ∧
  (∀ a, State.reset.code.read a = 0) ∧ State.reset.codeLen = 0 ∧ State.reset.run = .running ∧
  State.reset.sysPhase = .idle ∧ State.reset.history = [] ∧ State.reset.trace = []

/-- The two invariants hold at reset. -/
def Obligations.ResetMeetsTheInvariants : Prop :=
  State.reset.Inv ∧ State.reset.RunMatchesHistory

/-- 70_reset_and_hazards.md R112, R113, R115, R116 (the bytes beyond the load and the bound are D6, D5; the refusal of
an oversized load is D26): a load of at most 768 bytes zeroes every register and M, fills CODE with the bytes and
then 0, sets `code_len` to `floor(n / 3)` and starts running; the state meets the invariants. A longer load is
refused. -/
def Obligations.LoadBuildsTheInitialState : Prop :=
  ∀ (cfg : Config) (script : List (Option HostResponse)) (bytes : List Byte),
    (bytes.length ≤ 768 → ∃ t, State.load cfg script bytes = .next t ∧
      (∀ r, t.regs.get r = 0) ∧ (∀ a, t.mem.read a = 0) ∧ (∀ a, t.code.read a = bytes.getD a 0) ∧
      t.codeLen = bytes.length / 3 ∧ t.run = .running ∧ t.sysPhase = .idle ∧ t.history = [] ∧ t.trace = [] ∧
      t.cfg = cfg ∧ t.hostScript = script ∧
      (cfg.enc.Valid → t.Inv) ∧ t.RunMatchesHistory) ∧
    (768 < bytes.length → State.load cfg script bytes = .refused (.loadTooLong bytes.length))

/-- The model's placing of a table word (log entries 9, 10): under the table's encoding, the next step runs the
instruction the word decodes to, after the increment of I. -/
def Obligations.PlacedWordIsRunNext : Prop :=
  ∀ (s : State) (w : Nat) (i : Instr), s.cfg.enc = encReference → s.code.wf → w < 2 ^ 24 →
    decodeTableWord 24 w = some i →
    step (s.withFetchWord 24 w) = exec i (s.withFetchWord 24 w).advancePc

/-- 60_exceptions.md R99 (the status of a fatal stop is the parameter of D27, a free value here): the status port
reports nothing while running, the exit code after an exit, and something non-zero after a fatal stop. -/
def Obligations.StatusPortReportsTheEnd : Prop :=
  ∀ s : State,
    (s.run = .running → s.exitStatus = none) ∧
    (∀ code, s.run = .exited code → s.exitStatus = some code.toNat) ∧
    (∀ why, s.run = .fatal why → ∃ n, s.exitStatus = some n ∧ n ≠ 0)
end

