-- ==== Sys2Proof/Laws/Decode.lean ====
section
/-! SUPPORT. The laws of operand resolution and of a valid encoding (00_scope.md R6, R11). -/

namespace Sys2Proof

theorem Opc.mem_all (o : Opc) : o ∈ Opc.all := by cases o <;> decide

theorem Reg.mem_all (r : Reg) : r ∈ Reg.all := by cases r <;> decide

theorem Flag.mem_all (f : Flag) : f ∈ Flag.all := by cases f <;> decide

theorem SysOp.mem_all (o : SysOp) : o ∈ SysOp.all := by cases o <;> decide

/-- `Enc.op` is injective (00_scope.md R6). -/
theorem Enc.Valid.op_inj {e : Enc} (h : e.Valid) {o o' : Opc} (heq : e.op o = e.op o') : o = o' :=
  List.inj_on_of_nodup_map h.1 o.mem_all o'.mem_all heq

/-- `Enc.reg` is injective (00_scope.md R6). -/
theorem Enc.Valid.reg_inj {e : Enc} (h : e.Valid) {r r' : Reg} (heq : e.reg r = e.reg r') : r = r' :=
  List.inj_on_of_nodup_map h.2.1 r.mem_all r'.mem_all heq

/-- The five flag bits are pairwise distinct (00_scope.md R6). -/
theorem Enc.Valid.flag_inj {e : Enc} (h : e.Valid) {f f' : Flag} (heq : e.flag f = e.flag f') : f = f' :=
  List.inj_on_of_nodup_map h.2.2.1.1 f.mem_all f'.mem_all heq

/-- The six syscall bits are pairwise distinct (00_scope.md R6). -/
theorem Enc.Valid.sys_inj {e : Enc} (h : e.Valid) {o o' : SysOp} (heq : e.sys o = e.sys o') : o = o' :=
  List.inj_on_of_nodup_map h.2.2.2.1 o.mem_all o'.mem_all heq

/-- What resolution can answer: a register whose id the byte is, or NONE with the byte itself. -/
theorem resolve_cases (e : Enc) (b : Byte) :
    (∃ r, resolve e b = .reg r ∧ e.reg r = b) ∨ (resolve e b = .none b ∧ ∀ r, e.reg r ≠ b) := by
  by_cases ha : b = e.regA
  · exact .inl ⟨.a, by simp [resolve, ha], ha.symm⟩
  by_cases hb : b = e.regB
  · exact .inl ⟨.b, by simp only [resolve, if_neg ha, if_pos hb], hb.symm⟩
  by_cases hc : b = e.regC
  · exact .inl ⟨.c, by simp only [resolve, if_neg ha, if_neg hb, if_pos hc], hc.symm⟩
  by_cases hd : b = e.regD
  · exact .inl ⟨.d, by simp only [resolve, if_neg ha, if_neg hb, if_neg hc, if_pos hd], hd.symm⟩
  by_cases hs : b = e.regS
  · exact .inl ⟨.s, by simp only [resolve, if_neg ha, if_neg hb, if_neg hc, if_neg hd, if_pos hs], hs.symm⟩
  by_cases hi : b = e.regI
  · exact .inl ⟨.i, by simp only [resolve, if_neg ha, if_neg hb, if_neg hc, if_neg hd, if_neg hs, if_pos hi],
      hi.symm⟩
  by_cases hf : b = e.regF
  · exact .inl ⟨.f, by
      simp only [resolve, if_neg ha, if_neg hb, if_neg hc, if_neg hd, if_neg hs, if_neg hi, if_pos hf], hf.symm⟩
  refine .inr ⟨?_, fun r h => ?_⟩
  · simp only [resolve, if_neg ha, if_neg hb, if_neg hc, if_neg hd, if_neg hs, if_neg hi, if_neg hf]
  · cases r
    · exact ha h.symm
    · exact hb h.symm
    · exact hc h.symm
    · exact hd h.symm
    · exact hs h.symm
    · exact hi h.symm
    · exact hf h.symm

/-- The id of a register resolves to that register. -/
theorem resolve_reg {e : Enc} (h : e.Valid) (r : Reg) : resolve e (e.reg r) = .reg r := by
  obtain ⟨r', hr', heq⟩ | ⟨-, hno⟩ := resolve_cases e (e.reg r)
  · rw [hr', h.reg_inj heq]
  · exact absurd rfl (hno r)

theorem Operand.wellFormed_none {e : Enc} {raw : Byte} :
    (Operand.none raw).wellFormed e = true ↔ ∀ r, e.reg r ≠ raw := by
  constructor
  · intro h r hr
    have hmem : raw ∈ Reg.all.map e.reg := List.mem_map.2 ⟨r, r.mem_all, hr⟩
    simp only [Operand.wellFormed, Bool.not_eq_true'] at h
    rw [List.contains_iff_mem.2 hmem] at h
    cases h
  · intro h
    simp only [Operand.wellFormed, Bool.not_eq_true', ← Bool.not_eq_true, List.contains_iff_mem, List.mem_map]
    rintro ⟨r, -, hr⟩
    exact h r hr

/-- The operand byte of a well-formed operand resolves to that operand. -/
theorem resolve_byte {e : Enc} (h : e.Valid) {o : Operand} (hw : o.wellFormed e = true) :
    resolve e (o.byte e) = o := by
  cases o with
  | reg r => exact resolve_reg h r
  | none raw =>
    obtain ⟨r, -, heq⟩ | ⟨hn, -⟩ := resolve_cases e raw
    · exact absurd heq (Operand.wellFormed_none.1 hw r)
    · exact hn

/-- Resolution gives a well-formed operand, and the byte can be read off it. -/
theorem resolve_wellFormed (e : Enc) (b : Byte) :
    (resolve e b).wellFormed e = true ∧ (resolve e b).byte e = b := by
  obtain ⟨r, hr, heq⟩ | ⟨hn, hno⟩ := resolve_cases e b
  · rw [hr]; exact ⟨rfl, heq⟩
  · rw [hn]; exact ⟨Operand.wellFormed_none.2 hno, rfl⟩

/-- Two opcode bytes of a valid encoding are equal just for the same handler. -/
theorem Enc.Valid.op_eq_iff {e : Enc} (h : e.Valid) (o o' : Opc) : e.op o = e.op o' ↔ o = o' :=
  ⟨h.op_inj, fun heq => heq ▸ rfl⟩

/-- The decoder in terms of `Enc.op`. -/
theorem decodeSlot_eq (e : Enc) (r : RawInstr) :
    decodeSlot e r =
      if r.op = e.op .imm then .ok (.imm (resolve e r.a1) r.a2)
      else if r.op = e.op .add then .ok (.add (resolve e r.a1) (resolve e r.a2))
      else if r.op = e.op .stk then .ok (.stk (resolve e r.a1) (resolve e r.a2))
      else if r.op = e.op .stm then .ok (.stm (resolve e r.a1) (resolve e r.a2))
      else if r.op = e.op .ldm then .ok (.ldm (resolve e r.a1) (resolve e r.a2))
      else if r.op = e.op .cmp then .ok (.cmp (resolve e r.a1) (resolve e r.a2))
      else if r.op = e.op .jmp then .ok (.jmp r.a1 (resolve e r.a2))
      else if r.op = e.op .sys then .ok (.sys r.a1 (resolve e r.a2))
      else .error (.unrecognized r.op) := rfl

/-- What each opcode byte of a valid encoding decodes to (30_encoding.md R47, R52). -/
theorem decodeSlot_op {e : Enc} (h : e.Valid) (o : Opc) (a1 a2 : Byte) :
    decodeSlot e ⟨e.op o, a1, a2⟩ = .ok (
      match o with
      | .imm => .imm (resolve e a1) a2
      | .add => .add (resolve e a1) (resolve e a2)
      | .stk => .stk (resolve e a1) (resolve e a2)
      | .stm => .stm (resolve e a1) (resolve e a2)
      | .ldm => .ldm (resolve e a1) (resolve e a2)
      | .cmp => .cmp (resolve e a1) (resolve e a2)
      | .jmp => .jmp a1 (resolve e a2)
      | .sys => .sys a1 (resolve e a2)) := by
  cases o <;> simp [decodeSlot_eq, h.op_eq_iff]

/-- Everything the decoder can answer: an instruction whose opcode byte it is, or that the byte is unrecognized. -/
theorem decodeSlot_cases (e : Enc) (slot : RawInstr) :
    (∃ i, decodeSlot e slot = .ok i ∧ slot.op = e.op i.opc ∧
      i = match i.opc with
        | .imm => .imm (resolve e slot.a1) slot.a2
        | .add => .add (resolve e slot.a1) (resolve e slot.a2)
        | .stk => .stk (resolve e slot.a1) (resolve e slot.a2)
        | .stm => .stm (resolve e slot.a1) (resolve e slot.a2)
        | .ldm => .ldm (resolve e slot.a1) (resolve e slot.a2)
        | .cmp => .cmp (resolve e slot.a1) (resolve e slot.a2)
        | .jmp => .jmp slot.a1 (resolve e slot.a2)
        | .sys => .sys slot.a1 (resolve e slot.a2)) ∨
    (decodeSlot e slot = .error (.unrecognized slot.op) ∧ ∀ o, slot.op ≠ e.op o) := by
  rw [decodeSlot_eq]
  by_cases h1 : slot.op = e.op .imm
  · rw [if_pos h1]; exact .inl ⟨_, rfl, h1, rfl⟩
  rw [if_neg h1]
  by_cases h2 : slot.op = e.op .add
  · rw [if_pos h2]; exact .inl ⟨_, rfl, h2, rfl⟩
  rw [if_neg h2]
  by_cases h3 : slot.op = e.op .stk
  · rw [if_pos h3]; exact .inl ⟨_, rfl, h3, rfl⟩
  rw [if_neg h3]
  by_cases h4 : slot.op = e.op .stm
  · rw [if_pos h4]; exact .inl ⟨_, rfl, h4, rfl⟩
  rw [if_neg h4]
  by_cases h5 : slot.op = e.op .ldm
  · rw [if_pos h5]; exact .inl ⟨_, rfl, h5, rfl⟩
  rw [if_neg h5]
  by_cases h6 : slot.op = e.op .cmp
  · rw [if_pos h6]; exact .inl ⟨_, rfl, h6, rfl⟩
  rw [if_neg h6]
  by_cases h7 : slot.op = e.op .jmp
  · rw [if_pos h7]; exact .inl ⟨_, rfl, h7, rfl⟩
  rw [if_neg h7]
  by_cases h8 : slot.op = e.op .sys
  · rw [if_pos h8]; exact .inl ⟨_, rfl, h8, rfl⟩
  rw [if_neg h8]
  refine .inr ⟨rfl, fun o => ?_⟩
  cases o <;> assumption

/-- Under a valid encoding two flags share a bit only if they are the same flag. -/
theorem Enc.Valid.flag_and_ne {e : Enc} (h : e.Valid) (x y : Flag) : (e.flag x &&& e.flag y ≠ 0) ↔ x = y := by
  have single := fun f => h.2.2.1.2 f (Flag.mem_all f)
  have key : ∀ a b : Byte, isSingleBit a = true → isSingleBit b = true → (a &&& b ≠ 0 ↔ a = b) := by
    intro a b ha hb
    simp only [isSingleBit, List.contains_iff_mem, List.mem_cons, List.not_mem_nil, or_false] at ha hb
    rcases ha with rfl|rfl|rfl|rfl|rfl|rfl|rfl|rfl <;> rcases hb with rfl|rfl|rfl|rfl|rfl|rfl|rfl|rfl <;> decide
  rw [key _ _ (single x) (single y)]
  exact ⟨h.flag_inj, fun h => h ▸ rfl⟩

/-- A union of bits meets a mask exactly when one of its parts does. -/
theorem or_and_ne_zero (a b c : Byte) : ((a ||| b) &&& c ≠ 0) ↔ (a &&& c ≠ 0 ∨ b &&& c ≠ 0) := by
  have split_or : ∀ x y : Byte, x ||| y = 0#8 ↔ x = 0#8 ∧ y = 0#8 := fun x y => BitVec.or_eq_zero_iff
  have distrib : (a ||| b) &&& c = (a &&& c) ||| (b &&& c) := by ext i hi; simp [Bool.and_or_distrib_right]
  change ¬ ((a ||| b) &&& c = 0#8) ↔ ¬ (a &&& c = 0#8) ∨ ¬ (b &&& c = 0#8)
  rw [distrib, split_or, not_and_or]

end Sys2Proof
end

