-- ==== Sys2Proof/Laws/State.lean ====
section
/-! SUPPORT. One lemma per field per update of the state, so that no later proof unfolds a record update. -/

namespace Sys2Proof.Machine

/-! ### State.setReg -/

@[simp] theorem State.setReg_cfg (s : State) (r : Reg) (v : Byte) :
    (s.setReg r v).cfg = s.cfg := rfl

@[simp] theorem State.setReg_regs (s : State) (r : Reg) (v : Byte) :
    (s.setReg r v).regs = s.regs.set r v := rfl

@[simp] theorem State.setReg_mem (s : State) (r : Reg) (v : Byte) :
    (s.setReg r v).mem = s.mem := rfl

@[simp] theorem State.setReg_code (s : State) (r : Reg) (v : Byte) :
    (s.setReg r v).code = s.code := rfl

@[simp] theorem State.setReg_codeLen (s : State) (r : Reg) (v : Byte) :
    (s.setReg r v).codeLen = s.codeLen := rfl

@[simp] theorem State.setReg_run (s : State) (r : Reg) (v : Byte) :
    (s.setReg r v).run = s.run := rfl

@[simp] theorem State.setReg_sysPhase (s : State) (r : Reg) (v : Byte) :
    (s.setReg r v).sysPhase = s.sysPhase := rfl

@[simp] theorem State.setReg_history (s : State) (r : Reg) (v : Byte) :
    (s.setReg r v).history = s.history := rfl

@[simp] theorem State.setReg_trace (s : State) (r : Reg) (v : Byte) :
    (s.setReg r v).trace = s.trace := rfl

@[simp] theorem State.setReg_hostScript (s : State) (r : Reg) (v : Byte) :
    (s.setReg r v).hostScript = s.hostScript := rfl

@[simp] theorem State.setReg_hostDraws (s : State) (r : Reg) (v : Byte) :
    (s.setReg r v).hostDraws = s.hostDraws := rfl

/-! ### State.writeMem -/

@[simp] theorem State.writeMem_cfg (s : State) (a v : Byte) :
    (s.writeMem a v).cfg = s.cfg := rfl

@[simp] theorem State.writeMem_regs (s : State) (a v : Byte) :
    (s.writeMem a v).regs = s.regs := rfl

@[simp] theorem State.writeMem_mem (s : State) (a v : Byte) :
    (s.writeMem a v).mem = s.mem.write a.toNat v := rfl

@[simp] theorem State.writeMem_code (s : State) (a v : Byte) :
    (s.writeMem a v).code = s.code := rfl

@[simp] theorem State.writeMem_codeLen (s : State) (a v : Byte) :
    (s.writeMem a v).codeLen = s.codeLen := rfl

@[simp] theorem State.writeMem_run (s : State) (a v : Byte) :
    (s.writeMem a v).run = s.run := rfl

@[simp] theorem State.writeMem_sysPhase (s : State) (a v : Byte) :
    (s.writeMem a v).sysPhase = s.sysPhase := rfl

@[simp] theorem State.writeMem_history (s : State) (a v : Byte) :
    (s.writeMem a v).history = s.history := rfl

@[simp] theorem State.writeMem_trace (s : State) (a v : Byte) :
    (s.writeMem a v).trace = s.trace := rfl

@[simp] theorem State.writeMem_hostScript (s : State) (a v : Byte) :
    (s.writeMem a v).hostScript = s.hostScript := rfl

@[simp] theorem State.writeMem_hostDraws (s : State) (a v : Byte) :
    (s.writeMem a v).hostDraws = s.hostDraws := rfl

/-! ### State.writeMemBytes -/

@[simp] theorem State.writeMemBytes_cfg (s : State) (base : Nat) (d : List Byte) :
    (s.writeMemBytes base d).cfg = s.cfg := rfl

@[simp] theorem State.writeMemBytes_regs (s : State) (base : Nat) (d : List Byte) :
    (s.writeMemBytes base d).regs = s.regs := rfl

@[simp] theorem State.writeMemBytes_mem (s : State) (base : Nat) (d : List Byte) :
    (s.writeMemBytes base d).mem = s.mem.writeBytes base d := rfl

@[simp] theorem State.writeMemBytes_code (s : State) (base : Nat) (d : List Byte) :
    (s.writeMemBytes base d).code = s.code := rfl

@[simp] theorem State.writeMemBytes_codeLen (s : State) (base : Nat) (d : List Byte) :
    (s.writeMemBytes base d).codeLen = s.codeLen := rfl

@[simp] theorem State.writeMemBytes_run (s : State) (base : Nat) (d : List Byte) :
    (s.writeMemBytes base d).run = s.run := rfl

@[simp] theorem State.writeMemBytes_sysPhase (s : State) (base : Nat) (d : List Byte) :
    (s.writeMemBytes base d).sysPhase = s.sysPhase := rfl

@[simp] theorem State.writeMemBytes_history (s : State) (base : Nat) (d : List Byte) :
    (s.writeMemBytes base d).history = s.history := rfl

@[simp] theorem State.writeMemBytes_trace (s : State) (base : Nat) (d : List Byte) :
    (s.writeMemBytes base d).trace = s.trace := rfl

@[simp] theorem State.writeMemBytes_hostScript (s : State) (base : Nat) (d : List Byte) :
    (s.writeMemBytes base d).hostScript = s.hostScript := rfl

@[simp] theorem State.writeMemBytes_hostDraws (s : State) (base : Nat) (d : List Byte) :
    (s.writeMemBytes base d).hostDraws = s.hostDraws := rfl

/-! ### State.writeCode -/

@[simp] theorem State.writeCode_cfg (s : State) (off : Nat) (d : List Byte) :
    (s.writeCode off d).cfg = s.cfg := rfl

@[simp] theorem State.writeCode_regs (s : State) (off : Nat) (d : List Byte) :
    (s.writeCode off d).regs = s.regs := rfl

@[simp] theorem State.writeCode_mem (s : State) (off : Nat) (d : List Byte) :
    (s.writeCode off d).mem = s.mem := rfl

@[simp] theorem State.writeCode_code (s : State) (off : Nat) (d : List Byte) :
    (s.writeCode off d).code = s.code.writeBytes off d := rfl

@[simp] theorem State.writeCode_codeLen (s : State) (off : Nat) (d : List Byte) :
    (s.writeCode off d).codeLen = s.codeLen := rfl

@[simp] theorem State.writeCode_run (s : State) (off : Nat) (d : List Byte) :
    (s.writeCode off d).run = s.run := rfl

@[simp] theorem State.writeCode_sysPhase (s : State) (off : Nat) (d : List Byte) :
    (s.writeCode off d).sysPhase = s.sysPhase := rfl

@[simp] theorem State.writeCode_history (s : State) (off : Nat) (d : List Byte) :
    (s.writeCode off d).history = s.history := rfl

@[simp] theorem State.writeCode_trace (s : State) (off : Nat) (d : List Byte) :
    (s.writeCode off d).trace = s.trace := rfl

@[simp] theorem State.writeCode_hostScript (s : State) (off : Nat) (d : List Byte) :
    (s.writeCode off d).hostScript = s.hostScript := rfl

@[simp] theorem State.writeCode_hostDraws (s : State) (off : Nat) (d : List Byte) :
    (s.writeCode off d).hostDraws = s.hostDraws := rfl

/-! ### State.raiseFatal -/

@[simp] theorem State.raiseFatal_cfg (s : State) (why : FatalReason) :
    (s.raiseFatal why).cfg = s.cfg := rfl

@[simp] theorem State.raiseFatal_regs (s : State) (why : FatalReason) :
    (s.raiseFatal why).regs = s.regs := rfl

@[simp] theorem State.raiseFatal_mem (s : State) (why : FatalReason) :
    (s.raiseFatal why).mem = s.mem := rfl

@[simp] theorem State.raiseFatal_code (s : State) (why : FatalReason) :
    (s.raiseFatal why).code = s.code := rfl

@[simp] theorem State.raiseFatal_codeLen (s : State) (why : FatalReason) :
    (s.raiseFatal why).codeLen = s.codeLen := rfl

@[simp] theorem State.raiseFatal_run (s : State) (why : FatalReason) :
    (s.raiseFatal why).run = .fatal why := rfl

@[simp] theorem State.raiseFatal_sysPhase (s : State) (why : FatalReason) :
    (s.raiseFatal why).sysPhase = s.sysPhase := rfl

@[simp] theorem State.raiseFatal_history (s : State) (why : FatalReason) :
    (s.raiseFatal why).history = s.history := rfl

@[simp] theorem State.raiseFatal_trace (s : State) (why : FatalReason) :
    (s.raiseFatal why).trace = s.trace := rfl

@[simp] theorem State.raiseFatal_hostScript (s : State) (why : FatalReason) :
    (s.raiseFatal why).hostScript = s.hostScript := rfl

@[simp] theorem State.raiseFatal_hostDraws (s : State) (why : FatalReason) :
    (s.raiseFatal why).hostDraws = s.hostDraws := rfl

/-! ### State.exitRun -/

@[simp] theorem State.exitRun_cfg (s : State) (c : Byte) :
    (s.exitRun c).cfg = s.cfg := rfl

@[simp] theorem State.exitRun_regs (s : State) (c : Byte) :
    (s.exitRun c).regs = s.regs := rfl

@[simp] theorem State.exitRun_mem (s : State) (c : Byte) :
    (s.exitRun c).mem = s.mem := rfl

@[simp] theorem State.exitRun_code (s : State) (c : Byte) :
    (s.exitRun c).code = s.code := rfl

@[simp] theorem State.exitRun_codeLen (s : State) (c : Byte) :
    (s.exitRun c).codeLen = s.codeLen := rfl

@[simp] theorem State.exitRun_run (s : State) (c : Byte) :
    (s.exitRun c).run = .exited c := rfl

@[simp] theorem State.exitRun_sysPhase (s : State) (c : Byte) :
    (s.exitRun c).sysPhase = s.sysPhase := rfl

@[simp] theorem State.exitRun_history (s : State) (c : Byte) :
    (s.exitRun c).history = s.history := rfl

@[simp] theorem State.exitRun_trace (s : State) (c : Byte) :
    (s.exitRun c).trace = s.trace := rfl

@[simp] theorem State.exitRun_hostScript (s : State) (c : Byte) :
    (s.exitRun c).hostScript = s.hostScript := rfl

@[simp] theorem State.exitRun_hostDraws (s : State) (c : Byte) :
    (s.exitRun c).hostDraws = s.hostDraws := rfl

/-! ### State.setPhase -/

@[simp] theorem State.setPhase_cfg (s : State) (p : SysPhase) :
    (s.setPhase p).cfg = s.cfg := rfl

@[simp] theorem State.setPhase_regs (s : State) (p : SysPhase) :
    (s.setPhase p).regs = s.regs := rfl

@[simp] theorem State.setPhase_mem (s : State) (p : SysPhase) :
    (s.setPhase p).mem = s.mem := rfl

@[simp] theorem State.setPhase_code (s : State) (p : SysPhase) :
    (s.setPhase p).code = s.code := rfl

@[simp] theorem State.setPhase_codeLen (s : State) (p : SysPhase) :
    (s.setPhase p).codeLen = s.codeLen := rfl

@[simp] theorem State.setPhase_run (s : State) (p : SysPhase) :
    (s.setPhase p).run = s.run := rfl

@[simp] theorem State.setPhase_sysPhase (s : State) (p : SysPhase) :
    (s.setPhase p).sysPhase = p := rfl

@[simp] theorem State.setPhase_history (s : State) (p : SysPhase) :
    (s.setPhase p).history = s.history := rfl

@[simp] theorem State.setPhase_trace (s : State) (p : SysPhase) :
    (s.setPhase p).trace = s.trace := rfl

@[simp] theorem State.setPhase_hostScript (s : State) (p : SysPhase) :
    (s.setPhase p).hostScript = s.hostScript := rfl

@[simp] theorem State.setPhase_hostDraws (s : State) (p : SysPhase) :
    (s.setPhase p).hostDraws = s.hostDraws := rfl

/-! ### State.emitTrace -/

@[simp] theorem State.emitTrace_cfg (s : State) (k : TraceKind) :
    (s.emitTrace k).cfg = s.cfg := rfl

@[simp] theorem State.emitTrace_regs (s : State) (k : TraceKind) :
    (s.emitTrace k).regs = s.regs := rfl

@[simp] theorem State.emitTrace_mem (s : State) (k : TraceKind) :
    (s.emitTrace k).mem = s.mem := rfl

@[simp] theorem State.emitTrace_code (s : State) (k : TraceKind) :
    (s.emitTrace k).code = s.code := rfl

@[simp] theorem State.emitTrace_codeLen (s : State) (k : TraceKind) :
    (s.emitTrace k).codeLen = s.codeLen := rfl

@[simp] theorem State.emitTrace_run (s : State) (k : TraceKind) :
    (s.emitTrace k).run = s.run := rfl

@[simp] theorem State.emitTrace_sysPhase (s : State) (k : TraceKind) :
    (s.emitTrace k).sysPhase = s.sysPhase := rfl

@[simp] theorem State.emitTrace_history (s : State) (k : TraceKind) :
    (s.emitTrace k).history = s.history := rfl

@[simp] theorem State.emitTrace_trace (s : State) (k : TraceKind) :
    (s.emitTrace k).trace = s.trace ++ [⟨k, s.regs, s.mem⟩] := rfl

@[simp] theorem State.emitTrace_hostScript (s : State) (k : TraceKind) :
    (s.emitTrace k).hostScript = s.hostScript := rfl

@[simp] theorem State.emitTrace_hostDraws (s : State) (k : TraceKind) :
    (s.emitTrace k).hostDraws = s.hostDraws := rfl

/-! ### State.hostAdvance -/

@[simp] theorem State.hostAdvance_cfg (s : State) :
    s.hostAdvance.cfg = s.cfg := rfl

@[simp] theorem State.hostAdvance_regs (s : State) :
    s.hostAdvance.regs = s.regs := rfl

@[simp] theorem State.hostAdvance_mem (s : State) :
    s.hostAdvance.mem = s.mem := rfl

@[simp] theorem State.hostAdvance_code (s : State) :
    s.hostAdvance.code = s.code := rfl

@[simp] theorem State.hostAdvance_codeLen (s : State) :
    s.hostAdvance.codeLen = s.codeLen := rfl

@[simp] theorem State.hostAdvance_run (s : State) :
    s.hostAdvance.run = s.run := rfl

@[simp] theorem State.hostAdvance_sysPhase (s : State) :
    s.hostAdvance.sysPhase = s.sysPhase := rfl

@[simp] theorem State.hostAdvance_history (s : State) :
    s.hostAdvance.history = s.history := rfl

@[simp] theorem State.hostAdvance_trace (s : State) :
    s.hostAdvance.trace = s.trace := rfl

@[simp] theorem State.hostAdvance_hostScript (s : State) :
    s.hostAdvance.hostScript = s.hostScript.tail := rfl

@[simp] theorem State.hostAdvance_hostDraws (s : State) :
    s.hostAdvance.hostDraws = if s.hostScript.isEmpty then s.hostDraws + 1 else s.hostDraws := rfl

/-! ### State.recordHost -/

@[simp] theorem State.recordHost_cfg (s : State) (req : HostRequest) (resp : Option HostResponse) :
    (s.recordHost req resp).cfg = s.cfg := rfl

@[simp] theorem State.recordHost_regs (s : State) (req : HostRequest) (resp : Option HostResponse) :
    (s.recordHost req resp).regs = s.regs := rfl

@[simp] theorem State.recordHost_mem (s : State) (req : HostRequest) (resp : Option HostResponse) :
    (s.recordHost req resp).mem = s.mem := rfl

@[simp] theorem State.recordHost_code (s : State) (req : HostRequest) (resp : Option HostResponse) :
    (s.recordHost req resp).code = s.code := rfl

@[simp] theorem State.recordHost_codeLen (s : State) (req : HostRequest) (resp : Option HostResponse) :
    (s.recordHost req resp).codeLen = s.codeLen := rfl

@[simp] theorem State.recordHost_run (s : State) (req : HostRequest) (resp : Option HostResponse) :
    (s.recordHost req resp).run = s.run := rfl

@[simp] theorem State.recordHost_sysPhase (s : State) (req : HostRequest) (resp : Option HostResponse) :
    (s.recordHost req resp).sysPhase = s.sysPhase := rfl

@[simp] theorem State.recordHost_history (s : State) (req : HostRequest) (resp : Option HostResponse) :
    (s.recordHost req resp).history = s.history ++ [⟨req, resp⟩] := rfl

@[simp] theorem State.recordHost_trace (s : State) (req : HostRequest) (resp : Option HostResponse) :
    (s.recordHost req resp).trace = s.trace := rfl

@[simp] theorem State.recordHost_hostScript (s : State) (req : HostRequest) (resp : Option HostResponse) :
    (s.recordHost req resp).hostScript = s.hostScript := rfl

@[simp] theorem State.recordHost_hostDraws (s : State) (req : HostRequest) (resp : Option HostResponse) :
    (s.recordHost req resp).hostDraws = s.hostDraws := rfl

/-! ### State.advancePc -/

@[simp] theorem State.advancePc_cfg (s : State) :
    s.advancePc.cfg = s.cfg := rfl

@[simp] theorem State.advancePc_regs (s : State) :
    s.advancePc.regs = s.regs.set .i (s.regs.i + 1) := rfl

@[simp] theorem State.advancePc_mem (s : State) :
    s.advancePc.mem = s.mem := rfl

@[simp] theorem State.advancePc_code (s : State) :
    s.advancePc.code = s.code := rfl

@[simp] theorem State.advancePc_codeLen (s : State) :
    s.advancePc.codeLen = s.codeLen := rfl

@[simp] theorem State.advancePc_run (s : State) :
    s.advancePc.run = s.run := rfl

@[simp] theorem State.advancePc_sysPhase (s : State) :
    s.advancePc.sysPhase = s.sysPhase := rfl

@[simp] theorem State.advancePc_history (s : State) :
    s.advancePc.history = s.history := rfl

@[simp] theorem State.advancePc_trace (s : State) :
    s.advancePc.trace = s.trace := rfl

@[simp] theorem State.advancePc_hostScript (s : State) :
    s.advancePc.hostScript = s.hostScript := rfl

@[simp] theorem State.advancePc_hostDraws (s : State) :
    s.advancePc.hostDraws = s.hostDraws := rfl

/-! ### State.updateCodeLen: only `codeLen` may change -/

@[simp] theorem State.updateCodeLen_cfg (s : State) (b r : Nat) :
    (s.updateCodeLen b r).cfg = s.cfg := by
  unfold State.updateCodeLen; split <;> rfl

@[simp] theorem State.updateCodeLen_regs (s : State) (b r : Nat) :
    (s.updateCodeLen b r).regs = s.regs := by
  unfold State.updateCodeLen; split <;> rfl

@[simp] theorem State.updateCodeLen_mem (s : State) (b r : Nat) :
    (s.updateCodeLen b r).mem = s.mem := by
  unfold State.updateCodeLen; split <;> rfl

@[simp] theorem State.updateCodeLen_code (s : State) (b r : Nat) :
    (s.updateCodeLen b r).code = s.code := by
  unfold State.updateCodeLen; split <;> rfl

@[simp] theorem State.updateCodeLen_run (s : State) (b r : Nat) :
    (s.updateCodeLen b r).run = s.run := by
  unfold State.updateCodeLen; split <;> rfl

@[simp] theorem State.updateCodeLen_sysPhase (s : State) (b r : Nat) :
    (s.updateCodeLen b r).sysPhase = s.sysPhase := by
  unfold State.updateCodeLen; split <;> rfl

@[simp] theorem State.updateCodeLen_history (s : State) (b r : Nat) :
    (s.updateCodeLen b r).history = s.history := by
  unfold State.updateCodeLen; split <;> rfl

@[simp] theorem State.updateCodeLen_trace (s : State) (b r : Nat) :
    (s.updateCodeLen b r).trace = s.trace := by
  unfold State.updateCodeLen; split <;> rfl

@[simp] theorem State.updateCodeLen_hostScript (s : State) (b r : Nat) :
    (s.updateCodeLen b r).hostScript = s.hostScript := by
  unfold State.updateCodeLen; split <;> rfl

@[simp] theorem State.updateCodeLen_hostDraws (s : State) (b r : Nat) :
    (s.updateCodeLen b r).hostDraws = s.hostDraws := by
  unfold State.updateCodeLen; split <;> rfl

theorem State.updateCodeLen_codeLen (s : State) (b r : Nat) :
    (s.updateCodeLen b r).codeLen =
      if s.cfg.policy = .extend then max s.codeLen (b + r / 3) else s.codeLen := by
  unfold State.updateCodeLen; split <;> simp_all

/-! ### State.writeOperand and State.writeResult: only `regs` may change -/

@[simp] theorem State.writeOperand_cfg (s : State) (o : Operand) (v : Byte) :
    (s.writeOperand o v).cfg = s.cfg := by
  cases o <;> rfl

@[simp] theorem State.writeOperand_mem (s : State) (o : Operand) (v : Byte) :
    (s.writeOperand o v).mem = s.mem := by
  cases o <;> rfl

@[simp] theorem State.writeOperand_code (s : State) (o : Operand) (v : Byte) :
    (s.writeOperand o v).code = s.code := by
  cases o <;> rfl

@[simp] theorem State.writeOperand_codeLen (s : State) (o : Operand) (v : Byte) :
    (s.writeOperand o v).codeLen = s.codeLen := by
  cases o <;> rfl

@[simp] theorem State.writeOperand_run (s : State) (o : Operand) (v : Byte) :
    (s.writeOperand o v).run = s.run := by
  cases o <;> rfl

@[simp] theorem State.writeOperand_sysPhase (s : State) (o : Operand) (v : Byte) :
    (s.writeOperand o v).sysPhase = s.sysPhase := by
  cases o <;> rfl

@[simp] theorem State.writeOperand_history (s : State) (o : Operand) (v : Byte) :
    (s.writeOperand o v).history = s.history := by
  cases o <;> rfl

@[simp] theorem State.writeOperand_trace (s : State) (o : Operand) (v : Byte) :
    (s.writeOperand o v).trace = s.trace := by
  cases o <;> rfl

@[simp] theorem State.writeOperand_hostScript (s : State) (o : Operand) (v : Byte) :
    (s.writeOperand o v).hostScript = s.hostScript := by
  cases o <;> rfl

@[simp] theorem State.writeOperand_hostDraws (s : State) (o : Operand) (v : Byte) :
    (s.writeOperand o v).hostDraws = s.hostDraws := by
  cases o <;> rfl

@[simp] theorem State.writeResult_cfg (s : State) (o : Operand) (v : Nat) :
    (s.writeResult o v).cfg = s.cfg := by
  cases o <;> rfl

@[simp] theorem State.writeResult_mem (s : State) (o : Operand) (v : Nat) :
    (s.writeResult o v).mem = s.mem := by
  cases o <;> rfl

@[simp] theorem State.writeResult_code (s : State) (o : Operand) (v : Nat) :
    (s.writeResult o v).code = s.code := by
  cases o <;> rfl

@[simp] theorem State.writeResult_codeLen (s : State) (o : Operand) (v : Nat) :
    (s.writeResult o v).codeLen = s.codeLen := by
  cases o <;> rfl

@[simp] theorem State.writeResult_run (s : State) (o : Operand) (v : Nat) :
    (s.writeResult o v).run = s.run := by
  cases o <;> rfl

@[simp] theorem State.writeResult_sysPhase (s : State) (o : Operand) (v : Nat) :
    (s.writeResult o v).sysPhase = s.sysPhase := by
  cases o <;> rfl

@[simp] theorem State.writeResult_history (s : State) (o : Operand) (v : Nat) :
    (s.writeResult o v).history = s.history := by
  cases o <;> rfl

@[simp] theorem State.writeResult_trace (s : State) (o : Operand) (v : Nat) :
    (s.writeResult o v).trace = s.trace := by
  cases o <;> rfl

@[simp] theorem State.writeResult_hostScript (s : State) (o : Operand) (v : Nat) :
    (s.writeResult o v).hostScript = s.hostScript := by
  cases o <;> rfl

@[simp] theorem State.writeResult_hostDraws (s : State) (o : Operand) (v : Nat) :
    (s.writeResult o v).hostDraws = s.hostDraws := by
  cases o <;> rfl

end Sys2Proof.Machine
end

