-- ==== Sys2Proof/Laws/Registers.lean ====
section
/-! SUPPORT. The laws of register and operand access (00_scope.md R11, 10_state.md R13). -/

namespace Sys2Proof.Machine

@[simp] theorem Regs.get_set (x : Regs) (r r' : Reg) (v : Byte) :
    (x.set r v).get r' = if r' = r then v else x.get r' := by
  cases r <;> cases r' <;> rfl

theorem Regs.ext_get {x y : Regs} (h : ∀ r, x.get r = y.get r) : x = y := by
  cases x; cases y
  simp only [Regs.mk.injEq]
  exact ⟨h .a, h .b, h .c, h .d, h .s, h .i, h .f⟩

@[simp] theorem Regs.get_a (x : Regs) : x.get .a = x.a := rfl
@[simp] theorem Regs.get_b (x : Regs) : x.get .b = x.b := rfl
@[simp] theorem Regs.get_c (x : Regs) : x.get .c = x.c := rfl
@[simp] theorem Regs.get_d (x : Regs) : x.get .d = x.d := rfl
@[simp] theorem Regs.get_s (x : Regs) : x.get .s = x.s := rfl
@[simp] theorem Regs.get_i (x : Regs) : x.get .i = x.i := rfl
@[simp] theorem Regs.get_f (x : Regs) : x.get .f = x.f := rfl

@[simp] theorem State.readOperand_reg (s : State) (r : Reg) :
    s.readOperand (.reg r) = s.regs.get r := rfl

@[simp] theorem State.readOperand_none (s : State) (raw : Byte) : s.readOperand (.none raw) = 0 := rfl

@[simp] theorem State.writeOperand_reg (s : State) (r : Reg) (v : Byte) :
    s.writeOperand (.reg r) v = s.setReg r v := rfl

@[simp] theorem State.writeOperand_none (s : State) (raw v : Byte) :
    s.writeOperand (.none raw) v = s := rfl

/-- The registers after a destination write: the named one holds the value, NONE changes none. -/
theorem State.writeOperand_get (s : State) (o : Operand) (v : Byte) (r : Reg) :
    (s.writeOperand o v).regs.get r = if o = .reg r then v else s.regs.get r := by
  cases o with
  | none raw => simp
  | reg r' => by_cases h : r = r' <;> simp [h, eq_comm]

/-- A destination write changes registers only. -/
theorem State.writeOperand_eq (s : State) (o : Operand) (v : Byte) :
    s.writeOperand o v = { s with regs := (s.writeOperand o v).regs } := by
  cases o <;> rfl

theorem State.writeResult_eq_writeOperand (s : State) (o : Operand) (v : Nat) :
    s.writeResult o v = s.writeOperand o (BitVec.ofNat 8 v) := rfl

end Sys2Proof.Machine
end

