-- ==== Sys2Proof/Laws/Memory.lean ====
section
/-! SUPPORT. The laws of the memories: a read after a write, and that every memory operation keeps the canonical
form and stays inside the size. -/

namespace Sys2Proof.Machine

/-! ### Reading after writing one byte -/

theorem Memory.read_nil (a : Nat) : Memory.read [] a = 0 := rfl

theorem Memory.read_eq_zero_of_lt {m : Memory} {a : Nat} (h : ∀ c ∈ m, a < c.1) : m.read a = 0 := by
  induction m with
  | nil => rfl
  | cons c rest ih =>
    have hc := h c (by simp)
    have : ¬ c.1 = a := by omega
    simp only [Memory.read, this, if_false]
    exact ih fun d hd => h d (by simp [hd])

theorem Memory.wf_tail {c : Host.Cell} {m : Memory} (h : Memory.wf (c :: m)) : m.wf := by
  obtain ⟨h1, h2⟩ := h
  simp only [List.map_cons, List.pairwise_cons] at h1
  exact ⟨h1.2, fun d hd => h2 d (by simp [hd])⟩

theorem Memory.wf_head_lt {c : Host.Cell} {m : Memory} (h : Memory.wf (c :: m)) : ∀ d ∈ m, c.1 < d.1 := by
  intro d hd
  have h1 := h.1
  simp only [List.map_cons, List.pairwise_cons] at h1
  exact h1.1 d.1 (List.mem_map_of_mem hd)

theorem Memory.wf_cons {c : Host.Cell} {m : Memory} (hm : m.wf) (hc : c.2 ≠ 0) (hlt : ∀ d ∈ m, c.1 < d.1) :
    Memory.wf (c :: m) := by
  refine ⟨?_, ?_⟩
  · simp only [List.map_cons, List.pairwise_cons]
    refine ⟨fun x hx => ?_, hm.1⟩
    obtain ⟨d, hd, rfl⟩ := List.mem_map.1 hx
    exact hlt d hd
  · intro d hd
    rcases List.mem_cons.1 hd with rfl | hd
    · exact hc
    · exact hm.2 d hd

/-! The five cases of a write at the head of a list. -/

theorem Memory.write_cons_lt {c : Host.Cell} {rest : Memory} {a : Nat} {v : Byte} (h : c.1 < a) :
    Memory.write (c :: rest) a v = c :: Memory.write rest a v := by
  simp [Memory.write, h]

theorem Memory.write_cons_eq_zero {c : Host.Cell} {rest : Memory} {a : Nat} (h : c.1 = a) :
    Memory.write (c :: rest) a 0 = rest := by
  subst h; simp [Memory.write]

theorem Memory.write_cons_eq {c : Host.Cell} {rest : Memory} {a : Nat} {v : Byte} (h : c.1 = a) (hv : v ≠ 0) :
    Memory.write (c :: rest) a v = (a, v) :: rest := by
  subst h; simp_all [Memory.write]

theorem Memory.write_cons_gt_zero {c : Host.Cell} {rest : Memory} {a : Nat} (h : a < c.1) :
    Memory.write (c :: rest) a 0 = c :: rest := by
  have h1 : ¬ c.1 < a := by omega
  have h2 : ¬ c.1 = a := by omega
  simp [Memory.write, h1, h2]

theorem Memory.write_cons_gt {c : Host.Cell} {rest : Memory} {a : Nat} {v : Byte} (h : a < c.1) (hv : v ≠ 0) :
    Memory.write (c :: rest) a v = (a, v) :: c :: rest := by
  have h1 : ¬ c.1 < a := by omega
  have h2 : ¬ c.1 = a := by omega
  simp_all [Memory.write]

theorem Memory.write_nil_zero (a : Nat) : Memory.write [] a 0 = [] := by simp [Memory.write]

theorem Memory.write_nil {a : Nat} {v : Byte} (hv : v ≠ 0) : Memory.write [] a v = [(a, v)] := by
  simp_all [Memory.write]

/-- A write of a cell list falls into one of these shapes. -/
theorem Memory.write_cases (c : Host.Cell) (rest : Memory) (a : Nat) (v : Byte) :
    (c.1 < a ∧ Memory.write (c :: rest) a v = c :: Memory.write rest a v) ∨
    (c.1 = a ∧ v = 0 ∧ Memory.write (c :: rest) a v = rest) ∨
    (c.1 = a ∧ v ≠ 0 ∧ Memory.write (c :: rest) a v = (a, v) :: rest) ∨
    (a < c.1 ∧ v = 0 ∧ Memory.write (c :: rest) a v = c :: rest) ∨
    (a < c.1 ∧ v ≠ 0 ∧ Memory.write (c :: rest) a v = (a, v) :: c :: rest) := by
  rcases Nat.lt_trichotomy c.1 a with h | h | h
  · exact .inl ⟨h, Memory.write_cons_lt h⟩
  · by_cases hv : v = 0
    · subst hv; exact .inr (.inl ⟨h, rfl, Memory.write_cons_eq_zero h⟩)
    · exact .inr (.inr (.inl ⟨h, hv, Memory.write_cons_eq h hv⟩))
  · by_cases hv : v = 0
    · subst hv; exact .inr (.inr (.inr (.inl ⟨h, rfl, Memory.write_cons_gt_zero h⟩)))
    · exact .inr (.inr (.inr (.inr ⟨h, hv, Memory.write_cons_gt h hv⟩)))

theorem Memory.read_cons_eq {c : Host.Cell} {rest : Memory} {a : Nat} (h : c.1 = a) :
    Memory.read (c :: rest) a = c.2 := by simp [Memory.read, h]

theorem Memory.read_cons_ne {c : Host.Cell} {rest : Memory} {a : Nat} (h : c.1 ≠ a) :
    Memory.read (c :: rest) a = Memory.read rest a := by simp [Memory.read, h]

theorem Memory.read_write_same {m : Memory} (h : m.wf) (a : Nat) (v : Byte) : (m.write a v).read a = v := by
  induction m with
  | nil =>
    by_cases hv : v = 0
    · subst hv; rw [Memory.write_nil_zero]; rfl
    · rw [Memory.write_nil hv, Memory.read_cons_eq rfl]
  | cons c rest ih =>
    have hlt := Memory.wf_head_lt h
    have hz : c.1 = a ∨ a < c.1 → Memory.read rest a = 0 := fun hca =>
      Memory.read_eq_zero_of_lt fun d hd => by have := hlt d hd; omega
    obtain ⟨hc, hw⟩ | ⟨hc, rfl, hw⟩ | ⟨-, -, hw⟩ | ⟨hc, rfl, hw⟩ | ⟨-, -, hw⟩ := Memory.write_cases c rest a v <;>
      rw [hw]
    · rw [Memory.read_cons_ne (by omega), ih (Memory.wf_tail h)]
    · exact hz (.inl hc)
    · exact Memory.read_cons_eq rfl
    · rw [Memory.read_cons_ne (by omega), hz (.inr hc)]
    · exact Memory.read_cons_eq rfl

theorem Memory.read_write_other {m : Memory} {a b : Nat} (hab : b ≠ a) (v : Byte) :
    (m.write a v).read b = m.read b := by
  induction m with
  | nil =>
    by_cases hv : v = 0
    · subst hv; rw [Memory.write_nil_zero]
    · rw [Memory.write_nil hv, Memory.read_cons_ne (Ne.symm hab)]
  | cons c rest ih =>
    obtain ⟨hc, hw⟩ | ⟨hc, -, hw⟩ | ⟨hc, -, hw⟩ | ⟨-, -, hw⟩ | ⟨-, -, hw⟩ := Memory.write_cases c rest a v <;>
      rw [hw]
    · by_cases hb : c.1 = b
      · rw [Memory.read_cons_eq hb, Memory.read_cons_eq hb]
      · rw [Memory.read_cons_ne hb, Memory.read_cons_ne hb, ih]
    · rw [Memory.read_cons_ne (by omega)]
    · rw [Memory.read_cons_ne (Ne.symm hab), Memory.read_cons_ne (by omega)]
    · exact Memory.read_cons_ne (Ne.symm hab)

theorem Memory.read_write {m : Memory} (h : m.wf) (a b : Nat) (v : Byte) :
    (m.write a v).read b = if b = a then v else m.read b := by
  by_cases hb : b = a
  · simp [hb, Memory.read_write_same h]
  · simp [hb, Memory.read_write_other hb]

/-! ### The canonical form -/

theorem Memory.mem_write {m : Memory} {a : Nat} {v : Byte} {c : Host.Cell} (h : c ∈ m.write a v) :
    c ∈ m ∨ (c = (a, v) ∧ v ≠ 0) := by
  induction m with
  | nil =>
    by_cases hv : v = 0
    · subst hv; rw [Memory.write_nil_zero] at h; exact .inl h
    · rw [Memory.write_nil hv, List.mem_singleton] at h
      exact .inr ⟨h, hv⟩
  | cons d rest ih =>
    obtain ⟨-, hw⟩ | ⟨-, -, hw⟩ | ⟨-, hv, hw⟩ | ⟨-, -, hw⟩ | ⟨-, hv, hw⟩ := Memory.write_cases d rest a v <;>
      rw [hw] at h <;> simp only [List.mem_cons] at h ⊢ <;> tauto

theorem Memory.write_wf {m : Memory} (h : m.wf) (a : Nat) (v : Byte) : (m.write a v).wf := by
  induction m with
  | nil =>
    by_cases hv : v = 0
    · subst hv; rw [Memory.write_nil_zero]; exact h
    · rw [Memory.write_nil hv]; exact Memory.wf_cons h hv (by simp)
  | cons c rest ih =>
    have hlt := Memory.wf_head_lt h
    have ht := Memory.wf_tail h
    obtain ⟨hc, hw⟩ | ⟨-, -, hw⟩ | ⟨hc, hv, hw⟩ | ⟨-, -, hw⟩ | ⟨hc, hv, hw⟩ := Memory.write_cases c rest a v <;>
      rw [hw]
    · refine Memory.wf_cons (ih ht) (h.2 c (by simp)) fun d hd => ?_
      rcases Memory.mem_write hd with hd | ⟨rfl, -⟩
      · exact hlt d hd
      · exact hc
    · exact ht
    · exact Memory.wf_cons ht hv fun d hd => hc ▸ hlt d hd
    · exact h
    · refine Memory.wf_cons h hv fun d hd => ?_
      rcases List.mem_cons.1 hd with rfl | hd
      · exact hc
      · exact hc.trans (hlt d hd)

theorem Memory.write_within {m : Memory} {size a : Nat} (h : m.within size) (ha : a < size) (v : Byte) :
    (m.write a v).within size := by
  intro c hc
  rcases Memory.mem_write hc with hc | ⟨rfl, -⟩
  · exact h c hc
  · exact ha

theorem Memory.writeBytes_wf {m : Memory} (h : m.wf) (base : Nat) (d : List Byte) : (m.writeBytes base d).wf := by
  induction d generalizing m base with
  | nil => exact h
  | cons v rest ih => exact ih (Memory.write_wf h base v) (base + 1)

theorem Memory.writeBytes_within {m : Memory} {size base : Nat} {d : List Byte} (h : m.within size)
    (hb : base + d.length ≤ size) : (m.writeBytes base d).within size := by
  induction d generalizing m base with
  | nil => exact h
  | cons v rest ih =>
    simp only [List.length_cons] at hb
    exact ih (Memory.write_within h (by omega) v) (by omega)

/-! ### Reading after a bulk write -/

theorem Memory.read_writeBytes_outside {m : Memory} {base a : Nat} {d : List Byte}
    (h : a < base ∨ base + d.length ≤ a) : (m.writeBytes base d).read a = m.read a := by
  induction d generalizing m base with
  | nil => rfl
  | cons v rest ih =>
    simp only [List.length_cons] at h
    simp only [Memory.writeBytes]
    rw [ih (by omega), Memory.read_write_other (by omega)]

theorem Memory.read_writeBytes_inside {m : Memory} (hm : m.wf) {base : Nat} {d : List Byte} {j : Nat}
    (h : j < d.length) : (m.writeBytes base d).read (base + j) = d[j] := by
  induction d generalizing m base j with
  | nil => simp at h
  | cons v rest ih =>
    simp only [Memory.writeBytes]
    cases j with
    | zero =>
      rw [Memory.read_writeBytes_outside (by omega), Nat.add_zero, Memory.read_write_same hm]
      rfl
    | succ k =>
      have hk : k < rest.length := by simpa using h
      have := ih (Memory.write_wf hm base v) (base := base + 1) hk
      rw [show base + (k + 1) = base + 1 + k by omega, this]
      rfl

/-! ### Bulk reads -/

@[simp] theorem Memory.readBytes_length (m : Memory) (base n : Nat) : (m.readBytes base n).length = n := by
  induction n generalizing base with
  | zero => rfl
  | succ k ih => simp [Memory.readBytes, ih]

theorem Memory.readBytes_getElem (m : Memory) (base n : Nat) {j : Nat} (h : j < (m.readBytes base n).length) :
    (m.readBytes base n)[j] = m.read (base + j) := by
  induction n generalizing base j with
  | zero => simp [Memory.readBytes] at h
  | succ k ih =>
    cases j with
    | zero => simp [Memory.readBytes]
    | succ i =>
      simp only [Memory.readBytes, List.getElem_cons_succ, ih]
      congr 1
      omega

/-! ### The reset state -/

theorem reset_memories_canonical :
    State.reset.mem.wf ∧ State.reset.mem.within memSize ∧
    State.reset.code.wf ∧ State.reset.code.within codeSize := by decide

end Sys2Proof.Machine
end

