-- ==== Sys2Proof/Laws/Host.lean ====
section
/-! SUPPORT. What one host transaction can do (44_syscall.md R79 to R81), and the bounds of the requests. -/

namespace Sys2Proof.Machine

/-- A drawn answer is always one the host may give (44_syscall.md R80). -/
theorem HostRequest.allows_freeResponse (req : HostRequest) (h : ∀ c, req ≠ .exit c) (n : Nat) :
    req.allows (req.freeResponse n) = true := by
  cases req with
  | openFile p => simp only [HostRequest.freeResponse]; split <;> rfl
  | read hd k =>
    simp only [HostRequest.freeResponse]; split
    · simp [HostRequest.allows]
    · rfl
  | write hd d =>
    simp only [HostRequest.freeResponse]; split
    · simp [HostRequest.allows]
    · rfl
  | sleep t => rfl
  | exit c => exact absurd rfl (h c)

/-- An answered transaction: the host gave an allowed answer, and the state recorded it and nothing else. -/
theorem State.hostTransact_answered {s t : State} {req : HostRequest} {resp : HostResponse}
    (h : s.hostTransact req = .answered resp t) :
    s.hostAnswer req = some resp ∧ req.allows resp = true ∧
      t = s.hostAdvance.recordHost req (some resp) := by
  unfold State.hostTransact at h
  split at h
  · cases h
  · rename_i r hr
    split at h
    · cases h; exact ⟨hr, ‹_›, rfl⟩
    · cases h

/-- A stuck transaction: the host never answers, or its answer is outside the bounds. -/
theorem State.hostTransact_stuck {s : State} {req : HostRequest} {f : Fault}
    (h : s.hostTransact req = .stuck f) :
    (s.hostAnswer req = none ∧ f = .hostSilent s.sysPhase) ∨
    (∃ resp, s.hostAnswer req = some resp ∧ req.allows resp = false ∧ f = .hostBreach s.sysPhase) := by
  unfold State.hostTransact at h
  split at h
  · cases h; exact Or.inl ⟨‹_›, rfl⟩
  · rename_i r hr
    split at h
    · cases h
    · cases h; exact Or.inr ⟨r, hr, by simp_all, rfl⟩

/-- The transaction when the answer is known and allowed. -/
theorem State.hostTransact_of_answer {s : State} {req : HostRequest} {resp : HostResponse}
    (h : s.hostAnswer req = some resp) (ha : req.allows resp = true) :
    s.hostTransact req = .answered resp (s.hostAdvance.recordHost req (some resp)) := by
  simp [State.hostTransact, h, ha]

/-- With nothing scripted the host answers within its duty (44_syscall.md R81). -/
theorem State.hostTransact_unscripted {s : State} {req : HostRequest} (hs : s.hostScript = [])
    (h : ∀ c, req ≠ .exit c) :
    s.hostTransact req = .answered (req.freeResponse s.hostDraws)
      (s.hostAdvance.recordHost req (some (req.freeResponse s.hostDraws))) :=
  State.hostTransact_of_answer (by simp [State.hostAnswer, hs]) (HostRequest.allows_freeResponse req h _)

/-- The answer does not depend on the phase, the outputs or the control state. -/
theorem State.hostAnswer_congr {s t : State} (req : HostRequest) (h1 : s.hostScript = t.hostScript)
    (h2 : s.hostDraws = t.hostDraws) : s.hostAnswer req = t.hostAnswer req := by
  simp [State.hostAnswer, h1, h2]

/-! ### The bounds of the requests -/

theorem State.clampedLen_le (s : State) : s.regs.b.toNat + s.clampedLen ≤ memSize := by
  have := s.regs.b.isLt
  simp only [State.clampedLen, memSize]
  omega

theorem State.clampedLen_le_c (s : State) : s.clampedLen ≤ 255 := by
  have := s.regs.c.isLt
  simp only [State.clampedLen, memSize]
  omega

theorem State.codeOffset_le (s : State) : s.codeOffset + 3 ≤ codeSize := by
  have := s.regs.b.isLt
  simp only [State.codeOffset, codeSize]
  omega

theorem pathAt_length_le (m : Memory) (a : Byte) : (pathAt m a).length ≤ memSize - a.toNat := by
  have := (List.takeWhile_sublist (· != 0) (l := m.readBytes a.toNat (memSize - a.toNat))).length_le
  simpa only [pathAt, Memory.readBytes_length] using this

theorem pathAt_no_nul (m : Memory) (a : Byte) : (pathAt m a).all (· != 0) = true := by
  simp only [pathAt]
  exact List.all_takeWhile

/-- Every request the sequencer makes is lawful. -/
theorem State.sysRequest_lawful (s : State) (o : SysOp) : (s.sysRequest o).lawful = true := by
  cases o with
  | openFile =>
    have h1 := pathAt_length_le s.mem s.regs.a
    have h2 := pathAt_no_nul s.mem s.regs.a
    simp only [State.sysRequest, HostRequest.lawful, h2, Bool.and_true, decide_eq_true_eq]
    omega
  | readCode => simp [State.sysRequest, HostRequest.lawful]
  | readMemory =>
    have h := s.clampedLen_le_c
    simp only [State.sysRequest, HostRequest.lawful, decide_eq_true_eq, codeSize]
    omega
  | write =>
    have h := s.clampedLen_le_c
    simp only [State.sysRequest, HostRequest.lawful, decide_eq_true_eq, Memory.readBytes_length]
    omega
  | sleep => rfl
  | exit => rfl

end Sys2Proof.Machine
end

