-- ==== Sys2Proof/Laws/Operations.lean ====
section
/-! SUPPORT. One spec lemma for each shared operation: the stack moves, the flag computation and test, the fetch and
the step. -/

namespace Sys2Proof.Machine

/-! ### Push and pop (42_stack_memory.md R69) -/

/-- A push moves S up and stores there; a source of S is read after the move. -/
theorem State.push_reg (s : State) (r : Reg) :
    s.push (.reg r) =
      { s with
        regs := { s.regs with s := s.regs.s + 1 }
        mem := s.mem.write (s.regs.s + 1).toNat (if r = .s then s.regs.s + 1 else s.regs.get r) } := by
  cases r <;> rfl

@[simp] theorem State.push_none (s : State) (raw : Byte) : s.push (.none raw) = s := rfl

@[simp] theorem State.pop_none (s : State) (raw : Byte) : s.pop (.none raw) = s := rfl

/-- A pop changes registers only. -/
theorem State.pop_eq (s : State) (o : Operand) : s.pop o = { s with regs := (s.pop o).regs } := by
  cases o <;> rfl

/-- The registers after a pop: the destination takes the byte at S; S moves down from what it is after the load. -/
theorem State.pop_reg_get (s : State) (dst r : Reg) :
    (s.pop (.reg dst)).regs.get r =
      if r = .s then (if dst = .s then s.mem.read s.regs.s.toNat - 1 else s.regs.s - 1)
      else if r = dst then s.mem.read s.regs.s.toNat else s.regs.get r := by
  cases dst <;> cases r <;> rfl

/-! ### Flags (43_compare_jump.md R74, R76) -/

/-- A comparison gives one of four values. -/
theorem compareFlags_eq (e : Enc) (u v : Byte) :
    compareFlags e u v =
      if u.toNat < v.toNat then e.flagL ||| e.flagN
      else if v.toNat < u.toNat then e.flagG ||| e.flagN
      else if u.toNat = 0 then e.flagE ||| e.flagZ
      else e.flagE := by
  have hz : ∀ w : Byte, w = 0 ↔ w.toNat = 0 := fun w => by
    constructor
    · rintro rfl; rfl
    · intro h; exact BitVec.eq_of_toNat_eq h
  have heq : u = v ↔ u.toNat = v.toNat := ⟨fun h => h ▸ rfl, BitVec.eq_of_toNat_eq⟩
  unfold compareFlags
  by_cases h1 : u.toNat < v.toNat
  · have h2 : ¬ v.toNat < u.toNat := by omega
    have h3 : ¬ u = v := by rw [heq]; omega
    have h4 : ¬ (u = 0 ∧ v = 0) := by rw [hz, hz]; omega
    simp only [h1, h2, h3, h4, if_true, if_false]
    simp
  · by_cases h2 : v.toNat < u.toNat
    · have h3 : ¬ u = v := by rw [heq]; omega
      have h4 : ¬ (u = 0 ∧ v = 0) := by rw [hz, hz]; omega
      simp only [h1, h2, h3, h4, if_true, if_false]
      simp
    · have h3 : u = v := by rw [heq]; omega
      by_cases h5 : u.toNat = 0
      · have h4 : u = 0 ∧ v = 0 := by rw [hz, hz]; omega
        obtain ⟨rfl, rfl⟩ := h4
        simp
      · have h4 : ¬ (u = 0 ∧ v = 0) := by rw [hz]; exact fun h => h5 h.1
        simp only [h1, h2, h4, h5, if_false, if_pos h3]
        simp

theorem jumpTaken_iff (mask f : Byte) : jumpTaken mask f = true ↔ mask = 0 ∨ mask &&& f ≠ 0 := by
  simp [jumpTaken]

/-! ### The step (40_interpreter.md R58 to R63) -/

theorem State.advancePc_eq (s : State) :
    s.advancePc = { s with regs := { s.regs with i := s.regs.i + 1 } } := rfl

theorem State.fetchInBounds_iff (s : State) : s.fetchInBounds = true ↔ s.regs.i.toNat < s.codeLen := by
  simp [State.fetchInBounds]

theorem step_of_instr {s : State} {i : Instr} (hr : s.run = .running) (hb : s.regs.i.toNat < s.codeLen)
    (hd : decodeSlot s.cfg.enc s.fetchSlot = .ok i) : step s = exec i s.advancePc := by
  simp only [step, hr, runningStep, s.fetchInBounds_iff.2 hb, if_true, dispatchSlot, State.advancePc_cfg, hd]

theorem step_of_unrecognized {s : State} {err : DecodeError} (hr : s.run = .running)
    (hb : s.regs.i.toNat < s.codeLen) (hd : decodeSlot s.cfg.enc s.fetchSlot = .error err) :
    step s = .next s.advancePc := by
  simp only [step, hr, runningStep, s.fetchInBounds_iff.2 hb, if_true, dispatchSlot, State.advancePc_cfg, hd,
    execUnrecognized]

theorem step_of_out_of_bounds {s : State} (hr : s.run = .running) (hb : s.codeLen ≤ s.regs.i.toNat) :
    step s = .next (s.raiseFatal (.fetchOutOfBounds s.regs.i)) := by
  have : s.fetchInBounds = false := by
    rw [← Bool.not_eq_true, s.fetchInBounds_iff]; omega
  simp only [step, hr, runningStep, this, Bool.false_eq_true, if_false]

theorem step_of_stopped {s : State} (h : s.run ≠ .running) : step s = .fault (.halted s.run) := by
  unfold step
  split
  · exact absurd ‹_› h
  · rfl
  · rfl

/-- Everything a step with a next state can be. -/
theorem step_next_cases {s t : State} (h : step s = .next t) :
    s.run = .running ∧
    ((∃ i, s.regs.i.toNat < s.codeLen ∧ decodeSlot s.cfg.enc s.fetchSlot = .ok i ∧
        exec i s.advancePc = .next t) ∨
     (∃ err, s.regs.i.toNat < s.codeLen ∧ decodeSlot s.cfg.enc s.fetchSlot = .error err ∧ t = s.advancePc) ∨
     (s.codeLen ≤ s.regs.i.toNat ∧ t = s.raiseFatal (.fetchOutOfBounds s.regs.i))) := by
  by_cases hr : s.run = .running
  · refine ⟨hr, ?_⟩
    rcases Nat.lt_or_ge s.regs.i.toNat s.codeLen with hb | hb
    · cases hd : decodeSlot s.cfg.enc s.fetchSlot with
      | ok i =>
        rw [step_of_instr hr hb hd] at h
        exact .inl ⟨i, hb, rfl, h⟩
      | error err =>
        rw [step_of_unrecognized hr hb hd] at h
        cases h
        exact .inr (.inl ⟨err, hb, rfl, rfl⟩)
    · rw [step_of_out_of_bounds hr hb] at h
      cases h
      exact .inr (.inr ⟨hb, rfl⟩)
  · rw [step_of_stopped hr] at h
    cases h

end Sys2Proof.Machine
end

