-- ==== Sys2Proof/Laws/PerInstr.lean ====
section
/-! SUPPORT. A fact about every instruction as syntax, one lemma per constructor: its encoding carries its opcode,
and each operand byte of a well-formed instruction resolves to its operand. -/

namespace Sys2Proof.Laws.OperandsResolve

/-- Under every valid encoding, a well-formed instruction is encoded with its own opcode byte, and every register
operand resolves from its byte. -/
def Statement (i : Instr) : Prop :=
  ∀ e : Enc, e.Valid → i.wellFormed e = true →
    (encode e i).op = e.op i.opc ∧ ∀ o ∈ i.operands, resolve e (o.byte e) = o

theorem of_operands {i : Instr} (hop : ∀ e : Enc, (encode e i).op = e.op i.opc) : Statement i :=
  fun e he hw => ⟨hop e, fun _ ho => resolve_byte he (List.all_eq_true.1 hw _ ho)⟩

theorem imm (rd : Operand) (value : Byte) : Statement (.imm rd value) := of_operands fun _ => rfl

theorem add (r1 r2 : Operand) : Statement (.add r1 r2) := of_operands fun _ => rfl

theorem stk (pop push : Operand) : Statement (.stk pop push) := of_operands fun _ => rfl

theorem stm (addr value : Operand) : Statement (.stm addr value) := of_operands fun _ => rfl

theorem ldm (rd addr : Operand) : Statement (.ldm rd addr) := of_operands fun _ => rfl

theorem cmp (r1 r2 : Operand) : Statement (.cmp r1 r2) := of_operands fun _ => rfl

theorem jmp (mask : Byte) (target : Operand) : Statement (.jmp mask target) := of_operands fun _ => rfl

theorem sys (mask : Byte) (ret : Operand) : Statement (.sys mask ret) := of_operands fun _ => rfl

end Sys2Proof.Laws.OperandsResolve
end

