-- ==== Sys2Proof/Laws/Syscall.lean ====
section
/-! SUPPORT. What one sub-operation and the sequencer can do (44_syscall.md R82 to R97). -/

namespace Sys2Proof.Machine

/-! ### Each sub-operation, when the host's answer is known -/

/-- The state after the transaction of phase `o`: the phase is entered, the answer taken and recorded. -/
def State.afterRequest (s : State) (o : SysOp) (resp : HostResponse) : State :=
  ((s.setPhase (.active o)).hostAdvance).recordHost (s.sysRequest o) (some resp)

theorem State.hostTransact_phase {s : State} {o : SysOp} {resp : HostResponse}
    (h : s.hostAnswer (s.sysRequest o) = some resp) (ha : (s.sysRequest o).allows resp = true) :
    (s.setPhase (.active o)).hostTransact (s.sysRequest o) = .answered resp (s.afterRequest o resp) :=
  State.hostTransact_of_answer (s := s.setPhase (.active o)) h ha

theorem runOp_openFile_handle {ret : Operand} {s : State} {h : Nat}
    (ha : s.hostAnswer (s.sysRequest .openFile) = some (.handle h)) :
    runOp ret .openFile s = .more ((s.afterRequest .openFile (.handle h)).writeResult ret h) := by
  have := State.hostTransact_phase ha rfl
  show subOpen ret _ = _
  unfold subOpen
  rw [show (s.setPhase (.active .openFile)).sysRequest .openFile = s.sysRequest .openFile from rfl, this]

theorem runOp_readCode_data {ret : Operand} {s : State} {d : List Byte}
    (ha : s.hostAnswer (s.sysRequest .readCode) = some (.data d)) (hd : d.length ≤ codeSize - s.codeOffset) :
    runOp ret .readCode s = .more
      ((((s.afterRequest .readCode (.data d)).writeCode s.codeOffset d).updateCodeLen
        s.regs.b.toNat d.length).writeResult ret d.length) := by
  have := State.hostTransact_phase ha (by simpa [State.sysRequest, HostRequest.allows] using hd)
  show subReadCode ret _ = _
  unfold subReadCode
  rw [show (s.setPhase (.active .readCode)).sysRequest .readCode = s.sysRequest .readCode from rfl, this]
  rfl

theorem runOp_readMemory_data {ret : Operand} {s : State} {d : List Byte}
    (ha : s.hostAnswer (s.sysRequest .readMemory) = some (.data d)) (hd : d.length ≤ s.clampedLen) :
    runOp ret .readMemory s = .more
      (((s.afterRequest .readMemory (.data d)).writeMemBytes s.regs.b.toNat d).writeResult ret d.length) := by
  have := State.hostTransact_phase ha (by simpa [State.sysRequest, HostRequest.allows] using hd)
  show subReadMemory ret _ = _
  unfold subReadMemory
  rw [show (s.setPhase (.active .readMemory)).sysRequest .readMemory = s.sysRequest .readMemory from rfl, this]
  rfl

theorem runOp_write_count {ret : Operand} {s : State} {w : Nat}
    (ha : s.hostAnswer (s.sysRequest .write) = some (.count w)) (hw : w ≤ s.clampedLen) :
    runOp ret .write s = .more ((s.afterRequest .write (.count w)).writeResult ret w) := by
  have := State.hostTransact_phase ha (by simpa [State.sysRequest, HostRequest.allows] using hw)
  show subWrite ret _ = _
  unfold subWrite
  rw [show (s.setPhase (.active .write)).sysRequest .write = s.sysRequest .write from rfl, this]

theorem runOp_sleep_done {ret : Operand} {s : State} (ha : s.hostAnswer (s.sysRequest .sleep) = some .done) :
    runOp ret .sleep s = .more ((s.afterRequest .sleep .done).writeResult ret 0) := by
  have := State.hostTransact_phase ha rfl
  show subSleep ret _ = _
  unfold subSleep
  rw [show (s.setPhase (.active .sleep)).sysRequest .sleep = s.sysRequest .sleep from rfl, this]

theorem runOp_exit (ret : Operand) (s : State) :
    runOp ret .exit s = .ended
      (((s.setPhase (.active .exit)).recordHost (.exit s.regs.a) none).exitRun s.regs.a) := rfl

/-- An `Err` answer ends the run, with nothing but the transaction recorded (44_syscall.md R93). -/
theorem runOp_err {ret : Operand} {s : State} (op : IoOp)
    (ha : s.hostAnswer (s.sysRequest op.sysOp) = some .err) :
    runOp ret op.sysOp s = .ended ((s.afterRequest op.sysOp .err).raiseFatal (.hostIoError op)) := by
  have hal : (s.sysRequest op.sysOp).allows .err = true := by cases op <;> rfl
  have := State.hostTransact_phase ha hal
  cases op
  · show subOpen ret _ = _
    unfold subOpen
    rw [show (s.setPhase (.active .openFile)).sysRequest .openFile = s.sysRequest .openFile from rfl]
    simp only [IoOp.sysOp] at this
    rw [this]; rfl
  · show subReadCode ret _ = _
    unfold subReadCode
    rw [show (s.setPhase (.active .readCode)).sysRequest .readCode = s.sysRequest .readCode from rfl]
    simp only [IoOp.sysOp] at this
    rw [this]; rfl
  · show subReadMemory ret _ = _
    unfold subReadMemory
    rw [show (s.setPhase (.active .readMemory)).sysRequest .readMemory = s.sysRequest .readMemory from rfl]
    simp only [IoOp.sysOp] at this
    rw [this]; rfl
  · show subWrite ret _ = _
    unfold subWrite
    rw [show (s.setPhase (.active .write)).sysRequest .write = s.sysRequest .write from rfl]
    simp only [IoOp.sysOp] at this
    rw [this]; rfl

/-! ### Inversion of one phase -/

/-- Everything a phase that completes can do. -/
inductive OpCompleted (ret : Operand) (s : State) : SysOp → State → Prop where
  | openFile (h : Nat) (ha : s.hostAnswer (s.sysRequest .openFile) = some (.handle h)) :
      OpCompleted ret s .openFile ((s.afterRequest .openFile (.handle h)).writeResult ret h)
  | readCode (d : List Byte) (ha : s.hostAnswer (s.sysRequest .readCode) = some (.data d))
      (hd : d.length ≤ codeSize - s.codeOffset) :
      OpCompleted ret s .readCode
        ((((s.afterRequest .readCode (.data d)).writeCode s.codeOffset d).updateCodeLen
          s.regs.b.toNat d.length).writeResult ret d.length)
  | readMemory (d : List Byte) (ha : s.hostAnswer (s.sysRequest .readMemory) = some (.data d))
      (hd : d.length ≤ s.clampedLen) :
      OpCompleted ret s .readMemory
        (((s.afterRequest .readMemory (.data d)).writeMemBytes s.regs.b.toNat d).writeResult ret d.length)
  | write (w : Nat) (ha : s.hostAnswer (s.sysRequest .write) = some (.count w)) (hw : w ≤ s.clampedLen) :
      OpCompleted ret s .write ((s.afterRequest .write (.count w)).writeResult ret w)
  | sleep (ha : s.hostAnswer (s.sysRequest .sleep) = some .done) :
      OpCompleted ret s .sleep ((s.afterRequest .sleep .done).writeResult ret 0)

/-- Everything a phase that ends the run can do. -/
inductive OpEnded (s : State) : SysOp → State → Prop where
  | err (op : IoOp) (ha : s.hostAnswer (s.sysRequest op.sysOp) = some .err) :
      OpEnded s op.sysOp ((s.afterRequest op.sysOp .err).raiseFatal (.hostIoError op))
  | exit : OpEnded s .exit
      (((s.setPhase (.active .exit)).recordHost (.exit s.regs.a) none).exitRun s.regs.a)

/-- A phase whose host is silent or breaks its duty. -/
def OpStuck (s : State) (o : SysOp) (f : Fault) : Prop :=
  o ≠ .exit ∧
  ((s.hostAnswer (s.sysRequest o) = none ∧ f = .hostSilent (.active o)) ∨
   (∃ resp, s.hostAnswer (s.sysRequest o) = some resp ∧ (s.sysRequest o).allows resp = false ∧
      f = .hostBreach (.active o)))

theorem runOp_stuck {ret : Operand} {s : State} {o : SysOp} {f : Fault} (ho : o ≠ .exit)
    (h : (s.setPhase (.active o)).hostTransact (s.sysRequest o) = .stuck f) :
    runOp ret o s = .stuck f ∧ OpStuck s o f := by
  refine ⟨?_, ho, State.hostTransact_stuck h⟩
  cases o with
  | openFile =>
    show subOpen ret _ = _
    unfold subOpen
    rw [show (s.setPhase (.active .openFile)).sysRequest .openFile = s.sysRequest .openFile from rfl, h]
  | readCode =>
    show subReadCode ret _ = _
    unfold subReadCode
    rw [show (s.setPhase (.active .readCode)).sysRequest .readCode = s.sysRequest .readCode from rfl, h]
  | readMemory =>
    show subReadMemory ret _ = _
    unfold subReadMemory
    rw [show (s.setPhase (.active .readMemory)).sysRequest .readMemory = s.sysRequest .readMemory from rfl, h]
  | write =>
    show subWrite ret _ = _
    unfold subWrite
    rw [show (s.setPhase (.active .write)).sysRequest .write = s.sysRequest .write from rfl, h]
  | sleep =>
    show subSleep ret _ = _
    unfold subSleep
    rw [show (s.setPhase (.active .sleep)).sysRequest .sleep = s.sysRequest .sleep from rfl, h]
  | exit => exact absurd rfl ho

/-- One phase: it completes, ends the run, or is stuck, in exactly these ways. -/
theorem runOp_cases (ret : Operand) (o : SysOp) (s : State) :
    (∃ t, runOp ret o s = .more t ∧ OpCompleted ret s o t) ∨
    (∃ t, runOp ret o s = .ended t ∧ OpEnded s o t) ∨
    (∃ f, runOp ret o s = .stuck f ∧ OpStuck s o f) := by
  by_cases ho : o = .exit
  · subst ho; exact .inr (.inl ⟨_, rfl, .exit⟩)
  · cases htr : (s.setPhase (.active o)).hostTransact (s.sysRequest o) with
    | stuck f => exact .inr (.inr ⟨f, runOp_stuck ho htr⟩)
    | answered resp t =>
      obtain ⟨ha, hal, -⟩ := State.hostTransact_answered htr
      replace ha : s.hostAnswer (s.sysRequest o) = some resp := ha
      cases o with
      | exit => exact absurd rfl ho
      | openFile =>
        cases resp <;> simp only [State.sysRequest, HostRequest.allows, Bool.false_eq_true] at hal
        · exact .inl ⟨_, runOp_openFile_handle ha, .openFile _ ha⟩
        · exact .inr (.inl ⟨_, runOp_err .openFile ha, .err .openFile ha⟩)
      | readCode =>
        cases resp <;> simp only [State.sysRequest, HostRequest.allows, Bool.false_eq_true, decide_eq_true_eq] at hal
        · exact .inl ⟨_, runOp_readCode_data ha hal, .readCode _ ha hal⟩
        · exact .inr (.inl ⟨_, runOp_err .readCode ha, .err .readCode ha⟩)
      | readMemory =>
        cases resp <;> simp only [State.sysRequest, HostRequest.allows, Bool.false_eq_true, decide_eq_true_eq] at hal
        · exact .inl ⟨_, runOp_readMemory_data ha hal, .readMemory _ ha hal⟩
        · exact .inr (.inl ⟨_, runOp_err .readMemory ha, .err .readMemory ha⟩)
      | write =>
        cases resp <;> simp only [State.sysRequest, HostRequest.allows, Bool.false_eq_true, decide_eq_true_eq,
          Memory.readBytes_length] at hal
        · exact .inl ⟨_, runOp_write_count ha hal, .write _ ha hal⟩
        · exact .inr (.inl ⟨_, runOp_err .write ha, .err .write ha⟩)
      | sleep =>
        cases resp <;> simp only [State.sysRequest, HostRequest.allows, Bool.false_eq_true] at hal
        exact .inl ⟨_, runOp_sleep_done ha, .sleep ha⟩

theorem runOp_more {ret : Operand} {o : SysOp} {s t : State} (h : runOp ret o s = .more t) :
    OpCompleted ret s o t := by
  obtain ⟨t', h', hc⟩ | ⟨t', h', -⟩ | ⟨f, h', -⟩ := runOp_cases ret o s <;> rw [h'] at h <;> cases h
  exact hc

theorem runOp_ended {ret : Operand} {o : SysOp} {s t : State} (h : runOp ret o s = .ended t) :
    OpEnded s o t := by
  obtain ⟨t', h', -⟩ | ⟨t', h', hc⟩ | ⟨f, h', -⟩ := runOp_cases ret o s <;> rw [h'] at h <;> cases h
  exact hc

theorem runOp_stuck_inv {ret : Operand} {o : SysOp} {s : State} {f : Fault} (h : runOp ret o s = .stuck f) :
    OpStuck s o f := by
  obtain ⟨t', h', -⟩ | ⟨t', h', -⟩ | ⟨f', h', hc⟩ := runOp_cases ret o s <;> rw [h'] at h <;> cases h
  exact hc

/-! ### The sequencer -/

@[simp] theorem runOps_nil (ret : Operand) (s : State) : runOps ret [] s = .more s := rfl

theorem runOps_cons (ret : Operand) (o : SysOp) (rest : List SysOp) (s : State) :
    runOps ret (o :: rest) s =
      match runOp ret o s with
      | .more t => runOps ret rest t
      | .ended t => .ended t
      | .stuck f => .stuck f := rfl

/-- Running a list of operations is running its first part and then, if the run goes on, the rest
(44_syscall.md R83). -/
theorem runOps_append (ret : Operand) (pre post : List SysOp) (s : State) :
    runOps ret (pre ++ post) s =
      match runOps ret pre s with
      | .more t => runOps ret post t
      | .ended t => .ended t
      | .stuck f => .stuck f := by
  induction pre generalizing s with
  | nil => rfl
  | cons o rest ih =>
    simp only [List.cons_append, runOps_cons]
    cases runOp ret o s with
    | more t => exact ih t
    | ended t => rfl
    | stuck f => rfl

/-- Induction over a completed sequence: what one completed phase keeps, the sequence keeps. -/
theorem runOps_more_induct {P : State → State → Prop} {ret : Operand} {ops : List SysOp} {s t : State}
    (h : runOps ret ops s = .more t) (hrefl : ∀ u, P u u)
    (hstep : ∀ o ∈ ops, ∀ u v w, OpCompleted ret u o v → P v w → P u w) : P s t := by
  induction ops generalizing s with
  | nil => cases h; exact hrefl _
  | cons o rest ih =>
    rw [runOps_cons] at h
    cases hr : runOp ret o s with
    | more u =>
      rw [hr] at h
      exact hstep o (by simp) s u t (runOp_more hr) (ih h fun o' ho' => hstep o' (by simp [ho']))
    | ended u => rw [hr] at h; cases h
    | stuck f => rw [hr] at h; cases h

/-- A sequence that ends the run: some phases complete, then one ends it. -/
theorem runOps_ended {ret : Operand} {ops : List SysOp} {s t : State} (h : runOps ret ops s = .ended t) :
    ∃ pre o post u, ops = pre ++ o :: post ∧ runOps ret pre s = .more u ∧ runOp ret o u = .ended t ∧
      OpEnded u o t := by
  induction ops generalizing s with
  | nil => cases h
  | cons o rest ih =>
    rw [runOps_cons] at h
    cases hr : runOp ret o s with
    | more u =>
      rw [hr] at h
      obtain ⟨pre, o', post, v, rfl, hv, hop, hend⟩ := ih h
      exact ⟨o :: pre, o', post, v, rfl, by rw [runOps_cons, hr]; exact hv, hop, hend⟩
    | ended u =>
      rw [hr] at h; cases h
      exact ⟨[], o, rest, s, rfl, rfl, hr, runOp_ended hr⟩
    | stuck f => rw [hr] at h; cases h

/-- A sequence that is stuck: some phases complete, then one is stuck. -/
theorem runOps_stuck {ret : Operand} {ops : List SysOp} {s : State} {f : Fault} (h : runOps ret ops s = .stuck f) :
    ∃ pre o post u, ops = pre ++ o :: post ∧ runOps ret pre s = .more u ∧ OpStuck u o f := by
  induction ops generalizing s with
  | nil => cases h
  | cons o rest ih =>
    rw [runOps_cons] at h
    cases hr : runOp ret o s with
    | more u =>
      rw [hr] at h
      obtain ⟨pre, o', post, v, rfl, hv, hst⟩ := ih h
      exact ⟨o :: pre, o', post, v, rfl, by rw [runOps_cons, hr]; exact hv, hst⟩
    | ended u => rw [hr] at h; cases h
    | stuck f' =>
      rw [hr] at h; cases h
      exact ⟨[], o, rest, s, rfl, rfl, runOp_stuck_inv hr⟩

/-- SYS: it completes and traces, or the run ends inside it, or the block is stuck. -/
theorem execSys_next {mask : Byte} {ret : Operand} {s t : State} (h : execSys mask ret s = .next t) :
    (∃ u, runOps ret (requestedOps s.cfg.enc mask) s = .more u ∧ t = (u.setPhase .idle).emitTrace .sys) ∨
    runOps ret (requestedOps s.cfg.enc mask) s = .ended t := by
  unfold execSys at h
  cases hr : runOps ret (requestedOps s.cfg.enc mask) s with
  | more u => rw [hr] at h; cases h; exact .inl ⟨u, rfl, rfl⟩
  | ended u => rw [hr] at h; cases h; exact .inr rfl
  | stuck f => rw [hr] at h; cases h

theorem mem_requestedOps {e : Enc} {mask : Byte} {o : SysOp} :
    o ∈ requestedOps e mask ↔ e.requests mask o = true := by
  cases o <;> simp [requestedOps, SysOp.all]

end Sys2Proof.Machine
end

