-- ==== Sys2Proof/Laws/Sequencer.lean ====
section
/-! SUPPORT. The frame of one phase of a SYS, of the sequencer, and of the instruction, each said once. -/

namespace Sys2Proof.Machine

theorem State.afterRequest_eq (s : State) (o : SysOp) (resp : HostResponse) :
    s.afterRequest o resp =
      { s with
        sysPhase := .active o
        history := s.history ++ [⟨s.sysRequest o, some resp⟩]
        hostScript := s.hostAdvance.hostScript
        hostDraws := s.hostAdvance.hostDraws } := rfl

/-- The registers after a result write: the return register holds the value modulo 256. -/
theorem State.writeResult_get (s : State) (ret : Operand) (v : Nat) (r : Reg) :
    (s.writeResult ret v).regs.get r = if ret = .reg r then BitVec.ofNat 8 v else s.regs.get r :=
  State.writeOperand_get s ret _ r

/-- A result write changes registers only. -/
theorem State.writeResult_eq (s : State) (o : Operand) (v : Nat) :
    s.writeResult o v = { s with regs := (s.writeResult o v).regs } := State.writeOperand_eq s o _

/-- A bulk write, read anywhere. -/
theorem Memory.read_writeBytes {m : Memory} (hm : m.wf) (base : Nat) (d : List Byte) (a : Nat) :
    (m.writeBytes base d).read a =
      if base ≤ a ∧ a < base + d.length then d.getD (a - base) 0 else m.read a := by
  split
  · rename_i h
    obtain ⟨j, rfl⟩ := Nat.exists_eq_add_of_le h.1
    have hj : j < d.length := by omega
    rw [Memory.read_writeBytes_inside hm hj]
    simp [hj]
  · exact Memory.read_writeBytes_outside (by omega)

/-! ### One phase -/

/-- What a completed phase leaves, beyond the values of its results. -/
structure CompletedFrame (ret : Operand) (s : State) (o : SysOp) (t : State) : Prop where
  not_exit : o ≠ .exit
  cfg : t.cfg = s.cfg
  run : t.run = s.run
  trace : t.trace = s.trace
  phase : t.sysPhase = .active o
  script : t.hostScript = s.hostAdvance.hostScript
  draws : t.hostDraws = s.hostAdvance.hostDraws
  regs : ∀ r, ret ≠ .reg r → t.regs.get r = s.regs.get r
  history : ∃ resp, s.hostAnswer (s.sysRequest o) = some resp ∧ resp ≠ .err ∧
    (s.sysRequest o).allows resp = true ∧
    t.history = s.history ++ [⟨s.sysRequest o, some resp⟩]
  mem : t.mem = s.mem ∨
    (o = .readMemory ∧ ∃ d, d.length ≤ s.clampedLen ∧ t.mem = s.mem.writeBytes s.regs.b.toNat d)
  code : (t.code = s.code ∧ t.codeLen = s.codeLen) ∨
    (o = .readCode ∧ ∃ d, d.length ≤ codeSize - s.codeOffset ∧ t.code = s.code.writeBytes s.codeOffset d ∧
      t.codeLen = if s.cfg.policy = .extend then max s.codeLen (s.regs.b.toNat + d.length / 3) else s.codeLen)

theorem OpCompleted.frame {ret : Operand} {s t : State} {o : SysOp} (h : OpCompleted ret s o t) :
    CompletedFrame ret s o t := by
  cases h with
  | openFile h ha =>
    exact {
      not_exit := by simp
      cfg := by simp [State.afterRequest_eq]
      run := by simp [State.afterRequest_eq]
      trace := by simp [State.afterRequest_eq]
      phase := by simp [State.afterRequest_eq]
      script := by simp [State.afterRequest_eq]
      draws := by simp [State.afterRequest_eq]
      regs := fun r hr => by rw [State.writeResult_get, if_neg hr]; rfl
      history := ⟨.handle h, ha, by simp, rfl, by simp [State.afterRequest_eq]⟩
      mem := .inl (by simp [State.afterRequest_eq])
      code := .inl (by simp [State.afterRequest_eq]) }
  | readCode d ha hd =>
    exact {
      not_exit := by simp
      cfg := by simp [State.afterRequest_eq]
      run := by simp [State.afterRequest_eq]
      trace := by simp [State.afterRequest_eq]
      phase := by simp [State.afterRequest_eq]
      script := by simp [State.afterRequest_eq]
      draws := by simp [State.afterRequest_eq]
      regs := fun r hr => by rw [State.writeResult_get, if_neg hr, State.updateCodeLen_regs]; rfl
      history := ⟨.data d, ha, by simp, by simpa [HostRequest.allows, State.sysRequest] using hd,
        by simp [State.afterRequest_eq]⟩
      mem := .inl (by simp [State.afterRequest_eq])
      code := .inr ⟨rfl, d, hd, by simp [State.afterRequest_eq],
        by rw [State.writeResult_codeLen, State.updateCodeLen_codeLen]; rfl⟩ }
  | readMemory d ha hd =>
    exact {
      not_exit := by simp
      cfg := by simp [State.afterRequest_eq]
      run := by simp [State.afterRequest_eq]
      trace := by simp [State.afterRequest_eq]
      phase := by simp [State.afterRequest_eq]
      script := by simp [State.afterRequest_eq]
      draws := by simp [State.afterRequest_eq]
      regs := fun r hr => by rw [State.writeResult_get, if_neg hr]; rfl
      history := ⟨.data d, ha, by simp, by simpa [HostRequest.allows, State.sysRequest] using hd,
        by simp [State.afterRequest_eq]⟩
      mem := .inr ⟨rfl, d, hd, by simp [State.afterRequest_eq]⟩
      code := .inl (by simp [State.afterRequest_eq]) }
  | write w ha hw =>
    exact {
      not_exit := by simp
      cfg := by simp [State.afterRequest_eq]
      run := by simp [State.afterRequest_eq]
      trace := by simp [State.afterRequest_eq]
      phase := by simp [State.afterRequest_eq]
      script := by simp [State.afterRequest_eq]
      draws := by simp [State.afterRequest_eq]
      regs := fun r hr => by rw [State.writeResult_get, if_neg hr]; rfl
      history := ⟨.count w, ha, by simp, by simpa [HostRequest.allows, State.sysRequest] using hw,
        by simp [State.afterRequest_eq]⟩
      mem := .inl (by simp [State.afterRequest_eq])
      code := .inl (by simp [State.afterRequest_eq]) }
  | sleep ha =>
    exact {
      not_exit := by simp
      cfg := by simp [State.afterRequest_eq]
      run := by simp [State.afterRequest_eq]
      trace := by simp [State.afterRequest_eq]
      phase := by simp [State.afterRequest_eq]
      script := by simp [State.afterRequest_eq]
      draws := by simp [State.afterRequest_eq]
      regs := fun r hr => by rw [State.writeResult_get, if_neg hr]; rfl
      history := ⟨.done, ha, by simp, rfl, by simp [State.afterRequest_eq]⟩
      mem := .inl (by simp [State.afterRequest_eq])
      code := .inl (by simp [State.afterRequest_eq]) }

/-- What a phase that ends the run leaves: everything but the phase, the outputs, the host's fields and `run`. -/
structure EndedFrame (s : State) (o : SysOp) (t : State) : Prop where
  cfg : t.cfg = s.cfg
  regs : t.regs = s.regs
  mem : t.mem = s.mem
  code : t.code = s.code
  codeLen : t.codeLen = s.codeLen
  trace : t.trace = s.trace
  phase : t.sysPhase = .active o
  how : (o = .exit ∧ t.run = .exited s.regs.a ∧ t.history = s.history ++ [⟨.exit s.regs.a, none⟩]) ∨
    ∃ op : IoOp, o = op.sysOp ∧ t.run = .fatal (.hostIoError op) ∧
      t.history = s.history ++ [⟨s.sysRequest o, some .err⟩]
  transaction : t.history = s.history ++ [s.transactionOf o]

theorem OpEnded.frame {s t : State} {o : SysOp} (h : OpEnded s o t) : EndedFrame s o t := by
  cases h with
  | err op ha =>
    refine ⟨rfl, rfl, rfl, rfl, rfl, rfl, rfl, .inr ⟨op, rfl, rfl, rfl⟩, ?_⟩
    have hop : op.sysOp ≠ .exit := by cases op <;> simp [IoOp.sysOp]
    simp only [State.transactionOf, if_neg hop, ha]
    rfl
  | exit => exact ⟨rfl, rfl, rfl, rfl, rfl, rfl, rfl, .inl ⟨rfl, rfl, rfl⟩, rfl⟩

theorem EndedFrame.run_ne {s t : State} {o : SysOp} (h : EndedFrame s o t) : t.run ≠ .running := by
  rcases h.how with ⟨-, h, -⟩ | ⟨op, -, h, -⟩ <;> rw [h] <;> simp

/-! ### The sequencer -/

/-- What a completed sequence of phases leaves. -/
structure SequenceFrame (ret : Operand) (ops : List SysOp) (s t : State) : Prop where
  no_exit : SysOp.exit ∉ ops
  cfg : t.cfg = s.cfg
  run : t.run = s.run
  trace : t.trace = s.trace
  regs : ∀ r, ret ≠ .reg r → t.regs.get r = s.regs.get r
  regs_nil : ops = [] → t.regs = s.regs
  history : ∃ ts : List Transaction, t.history = s.history ++ ts ∧ ts.length = ops.length ∧
    ∀ x ∈ ts, x.succeeded = true ∧ x.lawful = true
  mem : SysOp.readMemory ∉ ops → t.mem = s.mem
  code : SysOp.readCode ∉ ops → t.code = s.code ∧ t.codeLen = s.codeLen
  codeLen : s.codeLen ≤ t.codeLen ∧ (s.cfg.policy = .fixed → t.codeLen = s.codeLen)

/-- A completed request recorded in the history is lawful and succeeded. -/
theorem lawful_of_allows {s : State} {o : SysOp} {resp : HostResponse} (he : resp ≠ .err)
    (ha : (s.sysRequest o).allows resp = true) :
    Transaction.succeeded ⟨s.sysRequest o, some resp⟩ = true ∧
    Transaction.lawful ⟨s.sysRequest o, some resp⟩ = true := by
  have hl := s.sysRequest_lawful o
  refine ⟨by simp [Transaction.succeeded, he], ?_⟩
  simp only [Transaction.lawful, hl, Bool.true_and]
  cases o <;> exact ha

theorem runOps_more_frame {ret : Operand} {ops : List SysOp} {s t : State} (h : runOps ret ops s = .more t) :
    SequenceFrame ret ops s t := by
  induction ops generalizing s with
  | nil =>
    cases h
    exact ⟨by simp, rfl, rfl, rfl, fun _ _ => rfl, fun _ => rfl, ⟨[], by simp⟩, fun _ => rfl, fun _ => ⟨rfl, rfl⟩,
      le_rfl, fun _ => rfl⟩
  | cons o rest ih =>
    rw [runOps_cons] at h
    cases hr : runOp ret o s with
    | ended u => rw [hr] at h; cases h
    | stuck f => rw [hr] at h; cases h
    | more u =>
      rw [hr] at h
      have f := (runOp_more hr).frame
      have g := ih h
      obtain ⟨resp, -, hne, hal, hh⟩ := f.history
      obtain ⟨ts, hts, hlen, hall⟩ := g.history
      have hlaw := lawful_of_allows hne hal
      refine ⟨?_, g.cfg.trans f.cfg, g.run.trans f.run, g.trace.trans f.trace,
        fun r hr => (g.regs r hr).trans (f.regs r hr), fun h => absurd h (by simp),
        ⟨_ :: ts, by rw [hts, hh, List.append_assoc]; rfl, by simp [hlen], ?_⟩, fun hn => ?_, fun hn => ?_, ?_, ?_⟩
      · exact fun hx => (List.mem_cons.1 hx).elim (fun h => f.not_exit h.symm) g.no_exit
      · intro x hx
        rcases List.mem_cons.1 hx with rfl | hx
        · exact hlaw
        · exact hall x hx
      · simp only [List.mem_cons, not_or] at hn
        rcases f.mem with hm | ⟨ho, -⟩
        · exact (g.mem hn.2).trans hm
        · exact absurd ho.symm hn.1
      · simp only [List.mem_cons, not_or] at hn
        rcases f.code with hc | ⟨ho, -⟩
        · exact ⟨(g.code hn.2).1.trans hc.1, (g.code hn.2).2.trans hc.2⟩
        · exact absurd ho.symm hn.1
      · refine le_trans ?_ g.codeLen.1
        rcases f.code with hc | ⟨-, d, -, -, hc⟩
        · exact hc.2.ge
        · rw [hc]; split
          · exact le_max_left _ _
          · exact le_rfl
      · intro hp
        rw [g.codeLen.2 (by rw [f.cfg]; exact hp)]
        rcases f.code with hc | ⟨-, d, -, -, hc⟩
        · exact hc.2
        · rw [hc, hp]; rfl

/-- What a completed sequence records: for each operation, in order, its transaction in the state it ran in. -/
theorem runOps_more_history {ret : Operand} {ops : List SysOp} {s t : State} (h : runOps ret ops s = .more t) :
    ∃ ts, t.history = s.history ++ ts ∧ ts.length = ops.length ∧ (∀ x ∈ ts, x.succeeded = true) ∧
      ∀ j o, ops[j]? = some o →
        ∃ u, runOps ret (ops.take j) s = .more u ∧ ts[j]? = some (u.transactionOf o) := by
  induction ops generalizing s with
  | nil => cases h; exact ⟨[], by simp⟩
  | cons o rest ih =>
    rw [runOps_cons] at h
    cases hr : runOp ret o s with
    | ended u => rw [hr] at h; cases h
    | stuck f => rw [hr] at h; cases h
    | more u =>
      rw [hr] at h
      have f := (runOp_more hr).frame
      obtain ⟨resp, ha, hne, hal, hh⟩ := f.history
      obtain ⟨ts, hts, hlen, hall, hidx⟩ := ih h
      refine ⟨s.transactionOf o :: ts, ?_, by simp [hlen], ?_, ?_⟩
      · simp only [hts, hh, State.transactionOf, if_neg f.not_exit, ha, List.append_assoc, List.singleton_append]
      · intro x hx
        rcases List.mem_cons.1 hx with rfl | hx
        · simpa only [State.transactionOf, if_neg f.not_exit, ha] using (lawful_of_allows hne hal).1
        · exact hall x hx
      · intro j o' hj
        cases j with
        | zero => cases hj; exact ⟨s, rfl, rfl⟩
        | succ j =>
          obtain ⟨v, hv, hx⟩ := hidx j o' hj
          exact ⟨v, by rw [List.take_succ_cons, runOps_cons, hr]; exact hv, hx⟩

/-- With nothing scripted no sequence is stuck (44_syscall.md R81). -/
theorem runOps_unscripted (ret : Operand) (ops : List SysOp) {s : State} (hs : s.hostScript = []) (f : Fault) :
    runOps ret ops s ≠ .stuck f := by
  induction ops generalizing s with
  | nil => simp
  | cons o rest ih =>
    rw [runOps_cons]
    cases hr : runOp ret o s with
    | more t =>
      refine ih ?_
      rw [(runOp_more hr).frame.script, State.hostAdvance_hostScript, hs]
      rfl
    | ended t => simp
    | stuck f' =>
      obtain ⟨hne, ⟨ha, -⟩ | ⟨resp, ha, hal, -⟩⟩ := runOp_stuck_inv hr
      · simp [State.hostAnswer, hs] at ha
      · simp only [State.hostAnswer, hs, Option.some.injEq] at ha
        rw [← ha, HostRequest.allows_freeResponse] at hal
        · cases hal
        · intro c
          cases o <;> simp [State.sysRequest] at hne ⊢

/-! ### The instruction -/

/-- A SYS that requests one operation runs that operation. -/
theorem requestedOps_only {e : Enc} {mask : Byte} {o : SysOp} (h : e.requestsOnly mask o) :
    requestedOps e mask = [o] := by
  have hb : ∀ o', e.requests mask o' = decide (o' = o) := fun o' => by
    by_cases ho : o' = o
    · simp [ho, (h o).2 rfl]
    · simp only [ho, decide_false, ← Bool.not_eq_true]
      exact fun hh => ho ((h o').1 hh)
  unfold requestedOps SysOp.all
  rw [funext hb]
  cases o <;> rfl

/-- Everything a SYS with a next state can be: all its operations completed and it traced; or some completed and
the next ended the run. -/
theorem execSys_next_frame {mask : Byte} {ret : Operand} {s t : State} (h : execSys mask ret s = .next t) :
    (∃ u, SequenceFrame ret (requestedOps s.cfg.enc mask) s u ∧
      runOps ret (requestedOps s.cfg.enc mask) s = .more u ∧ t = (u.setPhase .idle).emitTrace .sys) ∨
    (∃ pre o post u, requestedOps s.cfg.enc mask = pre ++ o :: post ∧ runOps ret pre s = .more u ∧
      SequenceFrame ret pre s u ∧ runOp ret o u = .ended t ∧ EndedFrame u o t) := by
  rcases execSys_next h with ⟨u, hu, rfl⟩ | hu
  · exact .inl ⟨u, runOps_more_frame hu, hu, rfl⟩
  · obtain ⟨pre, o, post, u, he, hu, hop, hend⟩ := runOps_ended hu
    exact .inr ⟨pre, o, post, u, he, hu, runOps_more_frame hu, hop, hend.frame⟩

/-- Everything a SYS that faults can be: some operations completed and the next was stuck. -/
theorem execSys_fault {mask : Byte} {ret : Operand} {s : State} {f : Fault} (h : execSys mask ret s = .fault f) :
    ∃ pre o post u, requestedOps s.cfg.enc mask = pre ++ o :: post ∧ runOps ret pre s = .more u ∧ OpStuck u o f := by
  unfold execSys at h
  cases hr : runOps ret (requestedOps s.cfg.enc mask) s with
  | more u => rw [hr] at h; cases h
  | ended u => rw [hr] at h; cases h
  | stuck f' => rw [hr] at h; cases h; exact runOps_stuck hr

/-- A SYS of one operation that completes: that operation, then the idle sequencer and the event. -/
theorem exec_sys_only {mask : Byte} {ret : Operand} {s t : State} {o : SysOp}
    (h : s.cfg.enc.requestsOnly mask o) (hr : runOp ret o s = .more t) :
    exec (.sys mask ret) s = .next ((t.setPhase .idle).emitTrace .sys) := by
  simp only [exec, execSys, requestedOps_only h, runOps_cons, hr, runOps_nil]

/-- Every instruction but SYS answers a next state that differs from the one before in its registers, M and trace
alone, and in the trace only for a CMP. -/
theorem exec_frame_of_not_sys {i : Instr} (h : i.isSys = false) (s : State) :
    ∃ t, exec i s = .next t ∧ t = { s with regs := t.regs, mem := t.mem, trace := t.trace } ∧
      (i.opc ≠ .cmp → t.trace = s.trace) := by
  cases i with
  | imm rd v => exact ⟨_, rfl, by cases rd <;> rfl, fun _ => by simp⟩
  | add r1 r2 => exact ⟨_, rfl, by cases r1 <;> rfl, fun _ => by simp⟩
  | stk p q => exact ⟨_, rfl, by cases p <;> cases q <;> rfl, fun _ => by cases p <;> cases q <;> rfl⟩
  | stm a v => exact ⟨_, rfl, rfl, fun _ => rfl⟩
  | ldm rd a => exact ⟨_, rfl, by cases rd <;> rfl, fun _ => by simp⟩
  | cmp a b => exact ⟨_, rfl, rfl, fun h => absurd rfl h⟩
  | jmp m tg =>
    by_cases hj : jumpTaken m s.regs.f = true
    · exact ⟨s.setReg .i (s.readOperand tg), by simp only [exec, execJmp, hj, if_true], rfl, fun _ => rfl⟩
    · exact ⟨s, by simp only [exec, execJmp, hj]; rfl, rfl, fun _ => rfl⟩
  | sys => cases h

/-- Every register as a number after a result is written: the result modulo 256 in the return register. -/
theorem State.writeResult_get_toNat (s : State) (ret : Operand) (n : Nat) (r : Reg) :
    ((s.writeResult ret n).regs.get r).toNat = if ret = .reg r then n % 256 else (s.regs.get r).toNat := by
  rw [State.writeResult_get]; split <;> simp

end Sys2Proof.Machine
end

