-- ==== Sys2Proof/Tests/Slice0.lean ====
section
/-! SUPPORT. The model's own tests. Expected results come from spec/95_test_vectors.md (the vector's id is in the
docstring), from the spec's encodings written out bit by bit, or are witnesses that a statement's hypotheses can be
met together. -/

namespace Sys2Proof.Tests

open Sys2Proof Sys2Proof.Machine

/-! ### Helpers -/

/-- A running machine with these registers (A, B, C, D, S, I, F), this M and this host. -/
def before (regs : Regs) (mem : Memory := []) (script : List (Option HostResponse) := []) : State :=
  { State.reset with regs := regs, mem := mem, hostScript := script }

/-- What `view` shows of the next state of an outcome. -/
def seen {α : Type} (view : State → α) (o : Host.Outcome State Fault Refusal) : Option α :=
  match o with
  | .next t => some (view t)
  | .fault _ => none
  | .refused _ => none

/-- What `view` shows after the step that runs the instruction of word `w` placed in `s`. -/
def afterWord {α : Type} (view : State → α) (w : Nat) (s : State) : Option α :=
  seen view (step (s.withFetchWord 24 w))

/-- A valid encoding that is not the reference one. -/
def encOther : Enc :=
  { encReference with
    opImm := 0xff, opJmp := 0x00, regA := 0x00, regF := 0xfe, flagL := 0x80, flagZ := 0x01, sysExit := 0x80 }

/-- The reference machine under the bound policy Extend. -/
def extending (s : State) : State := { s with cfg := ⟨encReference, .extend⟩ }

/-! ### Well-formedness: every check refuses -/

/-- 00_scope.md R11: a NONE operand that carries the id of a register is refused in every operand position. -/
theorem test_wellformed_refuses :
    [Instr.imm (.none 0x01) 0, .add (.none 0x02) (.reg .a), .add (.reg .a) (.none 0x04),
      .stk (.none 0x08) (.reg .a), .stk (.reg .a) (.none 0x10), .stm (.none 0x20) (.reg .a),
      .stm (.reg .a) (.none 0x40), .ldm (.none 0x01) (.reg .a), .ldm (.reg .a) (.none 0x02),
      .cmp (.none 0x04) (.reg .a), .cmp (.reg .a) (.none 0x08), .jmp 0 (.none 0x10),
      .sys 0 (.none 0x20)].all (fun i => !i.wellFormed encReference) = true := by decide

/-- The same instructions with a byte that names no register are well formed. -/
theorem test_wellformed_accepts :
    [Instr.imm (.none 0x00) 0, .add (.none 0x03) (.none 0xff), .stk (.none 0x80) (.reg .f),
      .stm (.reg .a) (.none 0x05), .ldm (.none 0x06) (.reg .i), .cmp (.none 0x07) (.none 0x09),
      .jmp 0xff (.none 0x21), .sys 0xff (.none 0x41)].all (Instr.wellFormed encReference) = true := by decide

/-- 00_scope.md R6: two equal opcodes, two equal register ids, two equal flags, a flag of two bits, two equal
syscalls and a syscall of no bit are each refused. -/
theorem test_enc_valid_refuses :
    ¬ ({ encReference with opSys := 0x01 } : Enc).Valid ∧ ¬ ({ encReference with regF := 0x01 } : Enc).Valid ∧
    ¬ ({ encReference with flagZ := 0x01 } : Enc).Valid ∧ ¬ ({ encReference with flagZ := 0x30 } : Enc).Valid ∧
    ¬ ({ encReference with sysExit := 0x01 } : Enc).Valid ∧ ¬ ({ encReference with sysExit := 0 } : Enc).Valid := by
  decide

/-! ### Decoding: words written out bit by bit (30_encoding.md R45, R47; spec/opcode_table.json) -/

/-- IMM f, 0xff: opcode 00000001, a1 01000000, a2 11111111. -/
theorem test_decode_imm : decodeTableWord 24 0b000000010100000011111111 = some (.imm (.reg .f) 0xff) := by decide

/-- ADD i, d: opcode 00000010, a1 00100000, a2 00001000. -/
theorem test_decode_add : decodeTableWord 24 0b000000100010000000001000 = some (.add (.reg .i) (.reg .d)) := by
  decide

/-- STK s, c: opcode 00000100, a1 00010000, a2 00000100. -/
theorem test_decode_stk : decodeTableWord 24 0b000001000001000000000100 = some (.stk (.reg .s) (.reg .c)) := by
  decide

/-- STM b, a: opcode 00001000, a1 00000010, a2 00000001. -/
theorem test_decode_stm : decodeTableWord 24 0b000010000000001000000001 = some (.stm (.reg .b) (.reg .a)) := by
  decide

/-- LDM c, 0x03 (two register bits together name no register): opcode 00010000, a1 00000100, a2 00000011. -/
theorem test_decode_ldm : decodeTableWord 24 0b000100000000010000000011 = some (.ldm (.reg .c) (.none 3)) := by
  decide

/-- CMP none, i: opcode 00100000, a1 00000000, a2 00100000. -/
theorem test_decode_cmp : decodeTableWord 24 0b001000000000000000100000 = some (.cmp (.none 0) (.reg .i)) := by
  decide

/-- JMP 0x80, d: opcode 01000000, a1 10000000 raw, a2 00001000. -/
theorem test_decode_jmp : decodeTableWord 24 0b010000001000000000001000 = some (.jmp 0x80 (.reg .d)) := by decide

/-- SYS exit, a: opcode 10000000, a1 00100000 raw, a2 00000001. -/
theorem test_decode_sys : decodeTableWord 24 0b100000000010000000000001 = some (.sys 0x20 (.reg .a)) := by decide

/-- A byte that is no opcode and a byte string that is too short are rejected by name. -/
theorem test_decode_rejects :
    decodeTableWord 24 0x000102 = none ∧ decodeTableWord 24 0xff0102 = none ∧
    decodeSlot encReference ⟨3, 1, 2⟩ = .error (.unrecognized 3) ∧
    (match decode encReference [1, 1] with | .error .truncated => true | _ => false) = true := ⟨rfl, rfl, rfl, rfl⟩

/-- V-S1, V-S2: the codec keeps six bytes and loses the fourth of four. -/
theorem test_codec :
    splitSlots [0x01, 0x01, 0x2a, 0x02, 0x01, 0x02] = [⟨0x01, 0x01, 0x2a⟩, ⟨0x02, 0x01, 0x02⟩] ∧
    joinSlots (splitSlots [0x01, 0x01, 0x2a, 0x02]) = [0x01, 0x01, 0x2a] := by decide

/-! ### One step of each instruction -/

/-- V-I3: IMM i, 7 is an absolute jump. -/
theorem test_imm_i : afterWord State.regs 0x012007 (before ⟨0, 0, 0, 0, 0, 0, 0⟩) = some ⟨0, 0, 0, 0, 0, 7, 0⟩ := by
  decide

/-- V-I7: I wraps at 256. -/
theorem test_imm_wraps :
    afterWord State.regs 0x010101 (before ⟨0, 0, 0, 0, 0, 0xff, 0⟩) = some ⟨1, 0, 0, 0, 0, 0, 0⟩ := by decide

/-- V-A1: the sum wraps and F is unchanged. -/
theorem test_add_wraps :
    afterWord State.regs 0x020102 (before ⟨0xff, 1, 0, 0, 0, 0, 0x14⟩) = some ⟨0, 1, 0, 0, 0, 1, 0x14⟩ := by decide

/-- V-A5: ADD i, d adds to the incremented I. -/
theorem test_add_i :
    afterWord State.regs 0x022008 (before ⟨0, 0, 0, 2, 0, 3, 0⟩) = some ⟨0, 0, 0, 2, 0, 6, 0⟩ := by decide

/-- V-K8: STK s, a stores at the incremented S and decrements the S it loaded. -/
theorem test_stk_s_a :
    afterWord (fun t => (t.regs, t.mem)) 0x041001 (before ⟨0x50, 0, 0, 0, 0x10, 0, 0⟩) =
      some (⟨0x50, 0, 0, 0, 0x4f, 1, 0⟩, [(0x11, 0x50)]) := by decide

/-- V-K12: the stack wraps at the top of memory. -/
theorem test_stk_wraps :
    afterWord (fun t => (t.regs, t.mem)) 0x040001 (before ⟨9, 0, 0, 0, 0xff, 0, 0⟩) =
      some (⟨9, 0, 0, 0, 0, 1, 0⟩, [(0, 9)]) := by decide

/-- V-M5: STM i, a stores at the incremented I. -/
theorem test_stm_i :
    afterWord State.mem 0x082001 (before ⟨0x66, 0, 0, 0, 0, 9, 0⟩) = some [(0x0a, 0x66)] := by decide

/-- V-M3: NONE stores 0. -/
theorem test_stm_none :
    afterWord State.mem 0x080200 (before ⟨0, 0x80, 0, 0, 0, 0, 0⟩ [(0x80, 0x12)]) = some [] := by decide

/-- V-L5: LDM i, b is an indirect jump. -/
theorem test_ldm_i :
    afterWord State.regs 0x102002 (before ⟨0, 0x80, 0, 0, 0, 0, 0⟩ [(0x80, 3)]) =
      some ⟨0, 0x80, 0, 0, 0, 3, 0⟩ := by decide

/-- V-L2: NONE is address 0. -/
theorem test_ldm_none :
    afterWord State.regs 0x100400 (before ⟨0, 0, 0, 0, 0, 0, 0⟩ [(0, 0x21)]) = some ⟨0, 0, 0x21, 0, 0, 1, 0⟩ := by
  decide

/-- V-P6: the comparison is unsigned, and the event shows the new F. -/
theorem test_cmp_unsigned :
    afterWord State.trace 0x200102 (before ⟨0x80, 0x7f, 0, 0, 0, 0, 0⟩) =
      some [⟨.cmp, ⟨0x80, 0x7f, 0, 0, 0, 1, 0x0a⟩, []⟩] := by decide

/-- V-P9: CMP f, a reads the old F. -/
theorem test_cmp_f :
    afterWord State.regs 0x204001 (before ⟨9, 0, 0, 0, 0, 0, 9⟩) = some ⟨9, 0, 0, 0, 0, 1, 4⟩ := by decide

/-- V-J7: a bit that is no flag matches. -/
theorem test_jmp_taken :
    afterWord State.regs 0x408008 (before ⟨0, 0, 0, 5, 0, 1, 0x80⟩) = some ⟨0, 0, 0, 5, 0, 5, 0x80⟩ := by decide

/-- V-J4: no bit in common, not taken. -/
theorem test_jmp_not_taken :
    afterWord State.regs 0x400408 (before ⟨0, 0, 0, 5, 0, 1, 9⟩) = some ⟨0, 0, 0, 5, 0, 2, 9⟩ := by decide

/-- V-Y25: all six operations in one SYS, in their order, and no event at the exit. -/
theorem test_sys_all :
    let s := before ⟨0x10, 0x40, 2, 0, 0, 0, 0⟩ [(0x10, 0x66)]
      [some (.handle 3), some (.data []), some (.data [0x71]), some (.count 1), some .done]
    afterWord (fun t => (t.regs, t.mem, t.run, t.trace)) 0x803f00 s =
      some (⟨0x10, 0x40, 2, 0, 0, 1, 0⟩, [(0x10, 0x66), (0x40, 0x71)], .exited 16, []) ∧
    afterWord State.history 0x803f00 s =
      some [⟨.openFile [0x66], some (.handle 3)⟩, ⟨.read 16 576, some (.data [])⟩,
        ⟨.read 16 2, some (.data [0x71])⟩, ⟨.write 16 [0x71, 0], some (.count 1)⟩,
        ⟨.sleep 16, some .done⟩, ⟨.exit 16, none⟩] := by decide

/-- V-Y8: a read-code under Extend raises the fetch bound. -/
theorem test_sys_read_code :
    afterWord (fun t => (t.regs.c, t.codeLen, t.code, t.trace.length)) 0x800204
      (extending (before ⟨3, 1, 0, 0, 0, 0, 0⟩ [] [some (.data [1, 1, 7, 1, 2])])) =
      some (5, 2, [(0, 0x80), (1, 2), (2, 4), (3, 1), (4, 1), (5, 7), (6, 1), (7, 2)], 1) := by decide

/-! ### The step outside the instructions -/

/-- V-C7: a byte with two opcode bits is no opcode. -/
theorem test_unrecognized :
    afterWord (fun t => (t.regs, t.trace)) 0x030102 (before ⟨1, 0, 0, 0, 0, 2, 0⟩) =
      some (⟨1, 0, 0, 0, 0, 3, 0⟩, []) := by decide

/-- V-C1: the first step after the load of nothing is the fetch fault. -/
theorem test_empty_load :
    seen (fun t => (t.run, t.regs.i, t.trace, t.history)) (step State.reset) =
      some (.fatal (.fetchOutOfBounds 0), 0, [], []) := by decide

/-- V-C2: the load of four bytes keeps the fourth in CODE and out of the bound. -/
theorem test_load :
    seen (fun t => (t.code, t.codeLen)) (State.load configReference [] [0x01, 0x01, 0x2a, 0x7e]) =
      some ([(0, 1), (1, 1), (2, 0x2a), (3, 0x7e)], 1) := by decide

/-! ### Witnesses: the hypotheses of every statement that has any can be met together -/

/-- A program slot at I = 0 in a small state, for the witnesses about a step. -/
def placed (w : Nat) : State := (before ⟨3, 1, 2, 0, 0x10, 0, 9⟩ [(0x10, 0x66)]).withFetchWord 24 w

theorem test_witness_DecodeEncodeAgree :
    encReference.Valid ∧ encOther.Valid ∧
    (Instr.stk (.none 0) (.reg .f)).wellFormed encReference = true ∧
    (Instr.stk (.none 0xff) (.reg .f)).wellFormed encOther = true ∧
    decodeSlot encOther ⟨0xff, 0xfe, 0x2a⟩ = .ok (.imm (.reg .f) 0x2a) := by
  refine ⟨by decide, by decide, by decide, by decide, rfl⟩

/-- The last slot of seven bytes. -/
theorem test_witness_CodecSplitsInThrees : 1 < ([1, 2, 3, 4, 5, 6, 7] : List Byte).length / 3 := by decide

theorem test_witness_CodecRoundTrip : ([1, 2, 3, 4, 5, 6] : List Byte).length % 3 = 0 := by decide

theorem test_witness_OperandResolution :
    encReference.Valid ∧ (∀ r, encReference.reg r ≠ 0) ∧ (∀ r, encReference.reg r ≠ 0xff) ∧
    encReference.reg .a = 0x01 ∧ encReference.reg .f = 0x40 := by
  refine ⟨by decide, fun r => ?_, fun r => ?_, by decide, by decide⟩ <;> cases r <;> decide

theorem test_witness_StepRunsDecodedInstruction :
    (placed 0x01012a).run = .running ∧ (placed 0x01012a).regs.i.toNat < (placed 0x01012a).codeLen ∧
    decodeSlot (placed 0x01012a).cfg.enc (placed 0x01012a).fetchSlot = .ok (.imm (.reg .a) 0x2a) := by
  refine ⟨rfl, by decide, rfl⟩

/-- The opcode byte each clause names, at I = 0, and a byte that is no opcode. -/
theorem test_witness_DispatchSelectsTheHandler :
    encReference.Valid ∧
    (Opc.all.map fun o => (placed ((encReference.op o).toNat * 65536)).code.read 0) = Opc.all.map encReference.op ∧
    (∀ o, (placed 0x030102).code.read 0 ≠ encReference.op o) ∧
    (placed 0x030102).run = .running ∧ (placed 0x030102).regs.i.toNat < (placed 0x030102).codeLen := by
  refine ⟨by decide, by decide, fun o => ?_, rfl, by decide⟩
  cases o <;> decide

theorem test_witness_UnrecognizedOpcodeIsIgnored :
    (placed 0x000102).run = .running ∧ (placed 0x000102).regs.i.toNat < (placed 0x000102).codeLen ∧
    ∀ o, (placed 0x000102).cfg.enc.op o ≠ (placed 0x000102).code.read (3 * (placed 0x000102).regs.i.toNat) := by
  refine ⟨rfl, by decide, fun o => ?_⟩
  cases o <;> decide

/-- V-C5: the first index out of bounds; V-C3: a full CODE. -/
theorem test_witness_FetchOutOfBoundsIsFatal :
    (({ before ⟨0, 0, 0, 0, 0, 7, 0⟩ with codeLen := 7 } : State).run = .running ∧
      ({ before ⟨0, 0, 0, 0, 0, 7, 0⟩ with codeLen := 7 } : State).codeLen ≤ (7 : Byte).toNat) ∧
    ({ before ⟨0, 0, 0, 0, 0, 0xff, 0⟩ with codeLen := 256 } : State).codeLen = 256 := by decide

theorem test_witness_TerminalStatesTakeNoStep :
    (State.reset.exitRun 7).run ≠ .running ∧ (State.reset.raiseFatal (.hostIoError .write)).run ≠ .running := by
  decide

/-- The hypothesis of the encoding clauses of ImmResult, AddResult, StmResult, LdmResult, and of
FlagsComeFromTheCompareAlone and SysMaskBitsWithoutOperationAreIgnored on the state. -/
theorem test_witness_ValidEncoding : encReference.Valid ∧ encOther.Valid ∧ State.reset.cfg.enc.Valid := by decide

/-- Canonical memory, for StkResult, StmResult and MemoryReadsTheLastWrite: empty, and both ends of M in use. -/
theorem test_witness_CanonicalMemory :
    State.reset.mem.wf ∧ Memory.wf [(0, 1), (0x10, 0x66), (255, 0xff)] ∧
    ¬ Memory.wf [(0, 0)] ∧ ¬ Memory.wf [(1, 1), (0, 1)] := by decide

theorem test_witness_PushThenPopGivesTheByteBack :
    (before ⟨9, 0, 0, 0, 0xff, 0, 0⟩ [(0, 1)]).mem.wf ∧ Reg.a ≠ .s ∧ Reg.f ≠ .s := by decide

theorem test_witness_NoAddressFaultAndNoWrap : Reg.b ≠ .s ∧ Reg.i ≠ .s := by decide

/-- Each of STK, STM and LDM takes a step; a read-code changes CODE. -/
theorem test_witness_CodeAndMemoryAreSeparate :
    (seen State.code (exec (.stk (.reg .a) (.reg .b)) State.reset)).isSome = true ∧
    (seen State.code (exec (.stm (.reg .a) (.reg .b)) State.reset)).isSome = true ∧
    (seen State.code (exec (.ldm (.reg .a) (.reg .b)) State.reset)).isSome = true ∧
    seen State.code (exec (.sys 2 (.reg .c)) (before ⟨3, 0xff, 0, 0, 0, 0, 0⟩ [] [some (.data [1])])) =
      some [(765, 1)] ∧ State.reset.code ≠ [(765, 1)] := by decide

/-- An instruction that is no CMP and does not name F. -/
theorem test_witness_FlagsComeFromTheCompareAlone :
    (Instr.imm (.reg .a) 1).opc ≠ .cmp ∧ ¬ (Instr.imm (.reg .a) 1).writesReg State.reset .f ∧
    exec (.imm (.reg .a) 1) State.reset = .next (State.reset.setReg .a 1) := by
  refine ⟨by decide, by simp [Instr.writesReg], rfl⟩

/-- No bit, and only bits that name no operation. -/
theorem test_witness_SysRequestingNothingOnlyTraces :
    (∀ o, State.reset.cfg.enc.requests 0 o = false) ∧ ∀ o, State.reset.cfg.enc.requests 0xc0 o = false := by
  refine ⟨fun o => ?_, fun o => ?_⟩ <;> cases o <;> decide

/-- The six masks of one operation, each with a bit that names none. -/
theorem test_witness_requestsOnly :
    encReference.requestsOnly 0x41 .openFile ∧ encReference.requestsOnly 0x42 .readCode ∧
    encReference.requestsOnly 0x44 .readMemory ∧ encReference.requestsOnly 0x48 .write ∧
    encReference.requestsOnly 0x90 .sleep ∧ encReference.requestsOnly 0xa0 .exit := by
  refine ⟨fun o => ?_, fun o => ?_, fun o => ?_, fun o => ?_, fun o => ?_, fun o => ?_⟩ <;> cases o <;> decide

/-- V-Y5, V-Y3: a handle over 255, and a path to the end of memory. -/
theorem test_witness_SysOpenResult :
    let s := before ⟨0xfe, 0, 0, 0, 0, 0, 0⟩ [(0xfe, 0x61), (0xff, 0x62)] [some (.handle 300)]
    s.cfg.enc.requestsOnly 0x41 .openFile ∧
    s.hostAnswer (.openFile (pathAt s.mem s.regs.a)) = some (.handle 300) ∧ pathAt s.mem s.regs.a = [0x61, 0x62] :=
  ⟨test_witness_requestsOnly.1, by decide⟩

/-- The length of the longest answer a read-code at B = 0xff allows, and the empty answer. -/
theorem test_witness_SysReadCodeResult :
    let s := before ⟨3, 0xff, 0, 0, 0, 0, 0⟩ [] [some (.data [1, 1, 7])]
    let s0 := before ⟨3, 0, 0, 0, 0, 0, 0⟩ [] [some (.data [])]
    (s.cfg.enc.requestsOnly 0x42 .readCode ∧ s0.cfg.enc.requestsOnly 0x42 .readCode) ∧
    (s.code.wf ∧ ([1, 1, 7] : List Byte).length ≤ 768 - 3 * s.regs.b.toNat ∧
      s.hostAnswer (.read s.regs.a (768 - 3 * s.regs.b.toNat)) = some (.data [1, 1, 7])) ∧
    (s0.code.wf ∧ s0.hostAnswer (.read s0.regs.a (768 - 3 * s0.regs.b.toNat)) = some (.data [])) :=
  ⟨⟨test_witness_requestsOnly.2.1, test_witness_requestsOnly.2.1⟩, by decide⟩

/-- B = 0xff allows one byte; C = 0 allows none. -/
theorem test_witness_SysReadMemoryResult :
    let s := before ⟨3, 0xff, 0x20, 0, 0, 0, 0⟩ [] [some (.data [7])]
    let s0 := before ⟨3, 0x20, 0, 0, 0, 0, 0⟩ [] [some (.data [])]
    (s.cfg.enc.requestsOnly 0x44 .readMemory ∧ s0.cfg.enc.requestsOnly 0x44 .readMemory) ∧
    (s.mem.wf ∧ ([7] : List Byte).length ≤ min (256 - s.regs.b.toNat) s.regs.c.toNat ∧
      s.hostAnswer (.read s.regs.a (min (256 - s.regs.b.toNat) s.regs.c.toNat)) = some (.data [7])) ∧
    (s0.mem.wf ∧ ([] : List Byte).length ≤ min (256 - s0.regs.b.toNat) s0.regs.c.toNat ∧
      s0.hostAnswer (.read s0.regs.a (min (256 - s0.regs.b.toNat) s0.regs.c.toNat)) = some (.data [])) :=
  ⟨⟨test_witness_requestsOnly.2.2.1, test_witness_requestsOnly.2.2.1⟩, by decide⟩

/-- V-Y14: the two bytes at the end of memory. -/
theorem test_witness_SysWriteResult :
    let s := before ⟨1, 0xfe, 0x10, 0, 0, 0, 0⟩ [(0xfe, 0x41), (0xff, 0x42)] [some (.count 2)]
    s.cfg.enc.requestsOnly 0x48 .write ∧ ([0x41, 0x42] : List Byte).length = min (256 - s.regs.b.toNat) s.regs.c.toNat ∧
    (∀ j, j < ([0x41, 0x42] : List Byte).length →
      ([0x41, 0x42] : List Byte)[j]? = some (s.mem.read (s.regs.b.toNat + j))) ∧
    2 ≤ ([0x41, 0x42] : List Byte).length ∧
    s.hostAnswer (.write s.regs.a [0x41, 0x42]) = some (.count 2) :=
  ⟨test_witness_requestsOnly.2.2.2.1, by decide⟩

/-- Scripted, and from the free answers. -/
theorem test_witness_SysSleepResult :
    let s := before ⟨2, 0, 0, 0, 0, 0, 0⟩ [] [some .done]
    let s0 := before ⟨2, 0, 0, 0, 0, 0, 0⟩
    (s.cfg.enc.requestsOnly 0x90 .sleep ∧ s.hostAnswer (.sleep s.regs.a) = some .done) ∧
    (s0.cfg.enc.requestsOnly 0x90 .sleep ∧ s0.hostAnswer (.sleep s0.regs.a) = some .done) :=
  ⟨⟨test_witness_requestsOnly.2.2.2.2.1, rfl⟩, ⟨test_witness_requestsOnly.2.2.2.2.1, rfl⟩⟩

/-- V-Y24: an exit after an open; and an exit alone. -/
theorem test_witness_SysExitEndsTheRun :
    let s := before ⟨0x10, 0, 0, 0, 0, 0, 0⟩ [(0x10, 0x66)] [some (.handle 0x105)]
    (requestedOps s.cfg.enc 0x21 = [.openFile] ++ [.exit] ∧ requestedOps s.cfg.enc 0x20 = [] ++ [.exit]) ∧
    ∃ s1, runOps (.reg .a) [.openFile] s = .more s1 := by
  refine ⟨by decide, _, rfl⟩

/-- Each of the four operations answered by an error, as the first of a SYS and after another one. -/
theorem test_witness_HostErrorIsFatal :
    let s := before ⟨3, 0, 1, 0, 0, 0, 0⟩ [] [some .err]
    let s2 := before ⟨3, 0, 1, 0, 0, 0, 0⟩ [] [some (.handle 4), some .err]
    ([IoOp.openFile, .readCode, .readMemory, .write].all fun op =>
      requestedOps s.cfg.enc (s.cfg.enc.sys op.sysOp) == ([] ++ op.sysOp :: [] : List SysOp) &&
      s.hostAnswer (s.sysRequest op.sysOp) == some .err) = true ∧
    runOps (.reg .a) [] s = .more s ∧
    requestedOps s2.cfg.enc 0x2d = [.openFile] ++ IoOp.readMemory.sysOp :: [.write, .exit] ∧
    (match runOps (.reg .a) [.openFile] s2 with
      | .more s1 => s1.hostAnswer (s1.sysRequest IoOp.readMemory.sysOp) == some .err
      | _ => false) = true ∧
    (match runOp (.reg .a) .exit s with | .ended _ => true | _ => false) = true := by decide

/-- Each of the five operations with a response: a silent host and an answer out of bounds. -/
theorem test_witness_HostBreachLeavesTheBlockStuck :
    let silent := before ⟨3, 0, 1, 0, 0, 0, 0⟩ [] [none]
    let wrong := before ⟨3, 0, 1, 0, 0, 0, 0⟩ [] [some (.count 300)]
    ([SysOp.openFile, .readCode, .readMemory, .write, .sleep].all fun o =>
      requestedOps encReference (encReference.sys o) == ([] ++ o :: [] : List SysOp) && o != .exit &&
      silent.hostAnswer (silent.sysRequest o) == none &&
      (match wrong.hostAnswer (wrong.sysRequest o) with
        | some resp => !(wrong.sysRequest o).allows resp
        | none => false)) = true ∧
    runOps (.reg .a) [] silent = .more silent := by
  decide

/-- Nothing scripted; a scripted SYS of two operations that faults at the second, by a silent host and by an answer
out of bounds; and one whose answers are all inside their bounds. -/
theorem test_witness_SysCompletesForEveryDutifulHost :
    let s := fun answer => before ⟨3, 0, 1, 0, 0, 0, 0⟩ [] [some (.handle 4), answer]
    let faultOf := fun (o : Host.Outcome State Fault Refusal) => match o with
      | .fault f => some f
      | _ => none
    (State.reset.run = .running ∧ State.reset.hostScript = []) ∧
    faultOf (exec (.sys 0x05 (.reg .a)) (s none)) = some (.hostSilent (.active .readMemory)) ∧
    faultOf (exec (.sys 0x05 (.reg .a)) (s (some (.data [1, 2])))) = some (.hostBreach (.active .readMemory)) ∧
    (s (some (.data [1]))).run = .running ∧
    seen State.run (exec (.sys 0x05 (.reg .a)) (s (some (.data [1])))) = some .running := by decide

/-- The mask of an open and an exit is the open's and then the exit's. -/
theorem test_witness_SysIsItsOperationsInOrder :
    State.reset.run = .running ∧
    requestedOps State.reset.cfg.enc 0x21 =
      requestedOps State.reset.cfg.enc 0x01 ++ requestedOps State.reset.cfg.enc 0x20 := by decide

/-- A SYS with a named return register, with the sentinel, and of EXIT alone. -/
theorem test_witness_SysWritesOnlyTheReturnRegister :
    let s := before ⟨2, 0, 0, 0, 0, 0, 0⟩ [] [some .done]
    (seen State.regs (exec (.sys 0x10 (.reg .a)) s)).isSome = true ∧ Operand.reg .a ≠ .reg .b ∧
    (seen State.regs (exec (.sys 0x10 (.none 0)) s)).isSome = true ∧
    (seen State.regs (exec (.sys 0xa0 (.reg .a)) s)).isSome = true ∧
    s.cfg.enc.requestsOnly 0xa0 .exit :=
  ⟨by decide, by decide, by decide, by decide, test_witness_requestsOnly.2.2.2.2.2⟩

/-- A SYS that goes on, a SYS that ends the run by its exit, one that ends it by an error at the second of its three
operations, and another instruction. -/
theorem test_witness_HostHistoryRecordsEachRequest :
    let s := before ⟨2, 0, 0, 0, 0, 0, 0⟩ [] [some .done]
    s.run = .running ∧ seen State.run (exec (.sys 0x10 (.reg .a)) s) = some .running ∧
    seen State.run (exec (.sys 0x30 (.none 0)) s) = some (.exited 2) ∧
    seen (fun t => (t.run, t.history)) (exec (.sys 0x0d (.reg .a))
      (before ⟨0x10, 0, 1, 0, 0, 0, 0⟩ [(0x10, 0x66)] [some (.handle 4), some .err])) =
      some (.fatal (.hostIoError .readMemory), [⟨.openFile [0x66], some (.handle 4)⟩, ⟨.read 4 1, some .err⟩]) ∧
    seen State.run (exec (.imm (.reg .a) 1) s) = some .running := by decide

/-- B = 1, I = 1, one whole slot answered: k = 0 meets the premises. -/
theorem test_witness_ReadCodeIsSeenByTheNextFetch :
    let s := before ⟨3, 1, 0, 0, 0, 1, 0⟩ [] [some (.data [0x01, 0x01, 0x07])]
    s.cfg.enc.requestsOnly 0x42 .readCode ∧ s.code.wf ∧ ([0x01, 0x01, 0x07] : List Byte).length ≤ 768 - 3 * s.regs.b.toNat ∧
    s.hostAnswer (.read s.regs.a (768 - 3 * s.regs.b.toNat)) = some (.data [0x01, 0x01, 0x07]) ∧
    seen (fun t => decide (t.regs.i.toNat = s.regs.b.toNat + 0)) (exec (.sys 0x42 (.reg .c)) s) = some true :=
  ⟨test_witness_requestsOnly.2.1, by decide⟩

/-- A step under Fixed, and a step under Extend that raises the bound (V-Y8). -/
theorem test_witness_FetchBoundFollowsThePolicy :
    let s := before ⟨3, 1, 0, 0, 0, 0, 0⟩ [] [some (.data [1, 1, 7, 1, 2])]
    (s.withFetchWord 24 0x800204).cfg.policy = .fixed ∧
    ((s.withFetchWord 24 0x800204).codeLen, afterWord State.codeLen 0x800204 s) = (1, some 1) ∧
    afterWord State.codeLen 0x800204 (extending s) = some 2 := by decide

/-- A next state of exec, for the statements whose only hypothesis is one; a register, a byte of M and a byte of CODE
that no column names. -/
theorem test_witness_WriteMatrixIsTheFrame :
    exec (.imm (.reg .a) 1) State.reset = .next (State.reset.setReg .a 1) ∧
    ¬ (Instr.imm (.reg .a) 1).writesReg State.reset .b ∧ ¬ (Instr.imm (.reg .a) 1).storesMem State.reset 255 ∧
    ¬ (Instr.imm (.reg .a) 1).storesCode State.reset 0 ∧ (Instr.imm (.reg .a) 1).isSys = false ∧
    (Instr.imm (.reg .a) 1).opc ≠ .cmp := by
  refine ⟨rfl, by simp [Instr.writesReg], by simp [Instr.storesMem], by simp [Instr.storesCode], rfl, by decide⟩

/-- The other instructions, each with a next state, a register no column names, and the bytes beside its store. -/
theorem test_witness_WriteMatrixIsTheFrame_others :
    let s := before ⟨0x50, 0x80, 0, 5, 0xff, 0, 4⟩
    ([Instr.add (.reg .a) (.reg .b), .stk (.none 0) (.reg .a), .stk (.reg .b) (.none 0), .stm (.reg .b) (.reg .a),
      .ldm (.reg .a) (.reg .b), .cmp (.reg .a) (.reg .b), .jmp 4 (.reg .d), .jmp 8 (.reg .d)].all fun i =>
        (seen State.regs (exec i s)).isSome) = true ∧
    (¬ (Instr.add (.reg .a) (.reg .b)).writesReg s .f ∧ ¬ (Instr.stk (.reg .b) (.none 0)).writesReg s .a ∧
      ¬ (Instr.stk (.none 0) (.none 0)).writesReg s .s ∧ ¬ (Instr.stm (.reg .b) (.reg .a)).writesReg s .b ∧
      ¬ (Instr.ldm (.reg .a) (.reg .b)).writesReg s .b ∧ ¬ (Instr.cmp (.reg .a) (.reg .b)).writesReg s .a ∧
      ¬ (Instr.jmp 8 (.reg .d)).writesReg s .i ∧ ¬ (Instr.jmp 4 (.reg .d)).writesReg s .f) ∧
    ((Instr.stk (.none 0) (.reg .a)).storesMem s 0 ∧ ¬ (Instr.stk (.none 0) (.reg .a)).storesMem s 255 ∧
      ¬ (Instr.stk (.none 0) (.reg .a)).storesMem s 256 ∧ (Instr.stm (.reg .b) (.reg .a)).storesMem s 0x80 ∧
      ¬ (Instr.stm (.reg .b) (.reg .a)).storesMem s 0x7f) := by
  refine ⟨by decide, ?_, ?_⟩ <;> simp [Instr.writesReg, Instr.storesMem, before, State.reset, State.readOperand, Regs.get]

/-- V-Y22 with B as the return register: the read-memory of a SYS stores from the handle its open put in B, not from
the B before, and no further than the answer's bound. -/
theorem test_witness_WriteMatrixIsTheFrame_read_memory :
    let s := before ⟨0x10, 0, 4, 0, 0, 0, 0⟩ [(0x10, 0x66)] [some (.handle 0x140), some (.data [1, 2, 3, 4])]
    (seen State.mem (exec (.sys 0x05 (.reg .b)) s) =
      some [(0x10, 0x66), (0x40, 1), (0x41, 2), (0x42, 3), (0x43, 4)]) ∧
    (Instr.sys 0x05 (.reg .b)).storesMem s 0x40 ∧ (Instr.sys 0x05 (.reg .b)).storesMem s 0x43 ∧
    ¬ (Instr.sys 0x05 (.reg .b)).storesMem s 0 ∧ ¬ (Instr.sys 0x05 (.reg .b)).storesMem s 0x3f ∧
    ¬ (Instr.sys 0x05 (.reg .b)).storesMem s 0x44 ∧ ¬ (Instr.sys 0x05 (.reg .b)).writesReg s .a := by
  refine ⟨by decide, ⟨rfl, _, rfl, by decide⟩, ⟨rfl, _, rfl, by decide⟩, ?_, ?_, ?_, by simp [Instr.writesReg]⟩ <;>
    (rintro ⟨-, s1, h, hb⟩; cases h; revert hb; decide)

/-- The read-code of a SYS stores from `3 * B` on, without an 8-bit wrap: B = 0xff is byte 765. -/
theorem test_witness_WriteMatrixIsTheFrame_read_code :
    let s := before ⟨3, 0xff, 0, 0, 0, 0, 0⟩ [] [some (.data [1, 1, 7])]
    (seen State.code (exec (.sys 0x02 (.reg .c)) s) = some [(765, 1), (766, 1), (767, 7)]) ∧
    (Instr.sys 0x02 (.reg .c)).storesCode s 765 ∧ (Instr.sys 0x02 (.reg .c)).storesCode s 767 ∧
    ¬ (Instr.sys 0x02 (.reg .c)).storesCode s 764 ∧ ¬ (Instr.sys 0x02 (.reg .c)).storesCode s 253 := by
  refine ⟨by decide, ⟨rfl, _, rfl, by decide⟩, ⟨rfl, _, rfl, by decide⟩, ?_, ?_⟩ <;>
    (rintro ⟨-, s1, h, hb⟩; cases h; revert hb; decide)

theorem test_witness_OnlySysCanEndTheRun : (Instr.jmp 0 (.none 0)).isSys = false := rfl

/-- The three ways out, and staying: a running machine takes each. -/
theorem test_witness_WaysOutOfRunning :
    State.reset.run = .running ∧ seen State.run (step State.reset) = some (.fatal (.fetchOutOfBounds 0)) ∧
    afterWord State.run 0x802001 (before ⟨7, 0, 0, 0, 0, 0, 0⟩) = some (.exited 7) ∧
    afterWord State.run 0x800101 (before ⟨7, 0, 0, 0, 0, 0, 0⟩ [] [some .err]) =
      some (.fatal (.hostIoError .openFile)) ∧
    afterWord State.run 0x01012a State.reset = some .running := by decide

/-- A CMP, a SYS that goes on, another instruction, and no instruction: a running machine takes each. -/
theorem test_witness_TraceEventsAreThoseOfCmpAndSys :
    (afterWord State.run 0x200102 State.reset).isSome = true ∧ afterWord State.run 0x800001 State.reset = some .running ∧
    (afterWord State.run 0x01012a State.reset).isSome = true ∧ (seen State.run (step State.reset)).isSome = true := by
  decide

/-- A step with a next state, and a step with a fault. -/
theorem test_witness_TraceIsNeverReadBack :
    step State.reset = .next (State.reset.raiseFatal (.fetchOutOfBounds 0)) ∧
    step (State.reset.exitRun 7) = .fault (.halted (.exited 7)) := ⟨rfl, rfl⟩

/-- A state with contents in every component meets the invariant and takes a step. -/
theorem test_witness_EveryStepKeepsInvariant :
    (placed 0x800001).Inv ∧ (seen State.run (step (placed 0x800001))).isSome = true := by decide

/-- Each of the four control states agrees with a history. -/
theorem test_witness_ControlStateMatchesHistory :
    (placed 0x800001).RunMatchesHistory ∧ (seen State.run (step (placed 0x800001))).isSome = true ∧
    State.RunMatchesHistory { State.reset with history := [⟨.exit 7, none⟩], run := .exited 7 } ∧
    State.RunMatchesHistory { State.reset with run := .fatal (.fetchOutOfBounds 0) } ∧
    State.RunMatchesHistory
      { State.reset with history := [⟨.write 1 [], some .err⟩], run := .fatal (.hostIoError .write) } := by
  refine ⟨?_, by decide, rfl, ⟨rfl, by decide⟩, rfl⟩
  intro t ht
  exact absurd ht (by decide +revert)

theorem test_witness_NoStepChangesTheParameters :
    step State.reset = .next (State.reset.raiseFatal (.fetchOutOfBounds 0)) := rfl

/-- V-C3, V-C4: 768 bytes are loaded, 769 are refused. -/
theorem test_witness_LoadBuildsTheInitialState :
    (List.replicate 768 (1 : Byte)).length ≤ 768 ∧ 768 < (List.replicate 769 (1 : Byte)).length := by
  simp only [List.length_replicate]; decide

theorem test_witness_PlacedWordIsRunNext :
    State.reset.cfg.enc = encReference ∧ State.reset.code.wf ∧ 0x01012a < 2 ^ 24 ∧
    decodeTableWord 24 0x01012a = some (.imm (.reg .a) 0x2a) := by decide

/-- The three kinds of control state. -/
theorem test_witness_StatusPortReportsTheEnd :
    State.reset.run = .running ∧ (State.reset.exitRun 7).run = .exited 7 ∧
    (State.reset.raiseFatal (.hostIoError .openFile)).run = .fatal (.hostIoError .openFile) := by decide

end Sys2Proof.Tests
end

section
/-! Scope: operand resolution (00_scope.md R11) and the fixed parameters (00_scope.md R6, R7). -/

namespace Sys2Proof

/-- No validity is needed in this direction: the byte can be read off what it resolves to. -/
theorem reg_eq_of_resolve {e : Enc} {b : Byte} {r : Reg} (h : resolve e b = .reg r) : e.reg r = b := by
  have hbyte := (resolve_wellFormed e b).2
  rwa [h] at hbyte

theorem resolve_eq_reg_iff {e : Enc} (he : e.Valid) {b : Byte} {r : Reg} :
    resolve e b = .reg r ↔ e.reg r = b :=
  ⟨reg_eq_of_resolve, fun h => h ▸ resolve_reg he r⟩

theorem resolve_eq_none {e : Enc} {b : Byte} (h : ∀ r, e.reg r ≠ b) : resolve e b = .none b := by
  obtain ⟨r, -, hr⟩ | ⟨hn, -⟩ := resolve_cases e b
  · exact absurd hr (h r)
  · exact hn

end Sys2Proof

namespace Sys2Proof.Machine

theorem execSys_cfg {mask : Byte} {ret : Operand} {s t : State} (h : execSys mask ret s = .next t) :
    t.cfg = s.cfg := by
  obtain ⟨u, hseq, -, rfl⟩ | ⟨pre, o, post, u, -, -, hseq, -, hend⟩ := execSys_next_frame h
  · exact hseq.cfg
  · exact hend.cfg.trans hseq.cfg

theorem exec_cfg {i : Instr} {s t : State} (h : exec i s = .next t) : t.cfg = s.cfg := by
  cases hi : i.isSys with
  | true =>
    cases i with
    | sys mask ret => exact execSys_cfg h
    | _ => cases hi
  | false =>
    obtain ⟨u, hu, heq, -⟩ := exec_frame_of_not_sys hi s
    obtain rfl : u = t := Host.Outcome.next.inj (hu.symm.trans h)
    rw [heq]

theorem step_cfg {s t : State} (h : step s = .next t) : t.cfg = s.cfg := by
  obtain ⟨-, ⟨i, -, -, hexec⟩ | ⟨err, -, -, rfl⟩ | ⟨-, rfl⟩⟩ := step_next_cases h
  · exact (exec_cfg hexec).trans s.advancePc_cfg
  · exact s.advancePc_cfg
  · exact s.raiseFatal_cfg _

/-- Settles O5: resolution inverts the injective register ids, and NONE has no storage. -/
theorem operandResolution : Obligations.OperandResolution := by
  refine ⟨fun e he b => ⟨fun r => resolve_eq_reg_iff he, resolve_eq_none, fun r r' hr hr' => ?_⟩,
    fun s raw v => ⟨s.readOperand_none raw, s.writeOperand_none raw v⟩⟩
  exact he.reg_inj (hr.trans hr'.symm)

/-- Settles O48, by the cases of a step: an instruction, an unrecognized opcode, a fetch out of bounds. -/
theorem noStepChangesTheParameters : Obligations.NoStepChangesTheParameters :=
  fun _ _ => step_cfg

end Sys2Proof.Machine
end

section
/-! State: the table of writes (10_state.md R23). What a SYS changes is traced back to the one phase that changed it;
the other instructions are read off their meaning. -/

namespace Sys2Proof.Machine

/-! ### The phase that made a change -/

/-- What a completed sequence changed, seen through any `view`, one of its phases changed. -/
theorem runOps_more_change {α : Type} {view : State → α} {ret : Operand} {ops : List SysOp} {s t : State}
    (h : runOps ret ops s = .more t) (hne : view t ≠ view s) :
    ∃ pre o post u v, ops = pre ++ o :: post ∧ runOps ret pre s = .more u ∧ CompletedFrame ret u o v ∧
      view v ≠ view u := by
  induction ops generalizing s with
  | nil => cases h; exact absurd rfl hne
  | cons o rest ih =>
    rw [runOps_cons] at h
    cases hr : runOp ret o s with
    | more w =>
      rw [hr] at h
      by_cases hw : view w = view s
      · obtain ⟨pre, o', post, u, v, rfl, hu, hv, hd⟩ := ih h (hw ▸ hne)
        exact ⟨o :: pre, o', post, u, v, rfl, by rw [runOps_cons, hr]; exact hu, hv, hd⟩
      · exact ⟨[], o, rest, s, w, rfl, rfl, (runOp_more hr).frame, hw⟩
    | ended w => rw [hr] at h; cases h
    | stuck f => rw [hr] at h; cases h

/-- A view that neither the end of a SYS nor the phase that ends the run can change was changed by a completed
phase. -/
theorem execSys_change {α : Type} {view : State → α} {mask : Byte} {ret : Operand} {s t : State}
    (hidle : ∀ u, view ((u.setPhase .idle).emitTrace .sys) = view u)
    (hend : ∀ u o v, EndedFrame u o v → view v = view u)
    (h : execSys mask ret s = .next t) (hne : view t ≠ view s) :
    ∃ pre o post u v, requestedOps s.cfg.enc mask = pre ++ o :: post ∧ runOps ret pre s = .more u ∧
      CompletedFrame ret u o v ∧ view v ≠ view u := by
  obtain ⟨u, -, hu, rfl⟩ | ⟨pre, o, post, u, hops, hu, -, -, hframe⟩ := execSys_next_frame h
  · exact runOps_more_change hu (hidle u ▸ hne)
  · obtain ⟨pre', o', post', w, v, rfl, hw, hv, hd⟩ := runOps_more_change hu (hend u o t hframe ▸ hne)
    exact ⟨pre', o', post' ++ o :: post, w, v, by rw [hops]; simp, hw, hv, hd⟩

/-- An operation found in a split of the requested ones was requested. -/
theorem requests_of_split {e : Enc} {mask : Byte} {o : SysOp} {pre post : List SysOp}
    (h : requestedOps e mask = pre ++ o :: post) : e.requests mask o = true :=
  mem_requestedOps.1 (by rw [h]; simp)

/-- The requested operations before `o` are those of the operations before it in the fixed order
(44_syscall.md R83). -/
theorem eq_filter_of_requestedOps_split {e : Enc} {mask : Byte} {o : SysOp} {pre post before after : List SysOp}
    (hall : SysOp.all = before ++ o :: after) (hbefore : o ∉ before) (hafter : o ∉ after)
    (h : requestedOps e mask = pre ++ o :: post) : pre = before.filter (e.requests mask) := by
  have hsplit : requestedOps e mask =
      before.filter (e.requests mask) ++ o :: after.filter (e.requests mask) := by
    rw [requestedOps, hall, List.filter_append, List.filter_cons_of_pos (requests_of_split h)]
  rw [hsplit] at h
  exact ((List.append_cons_inj_of_notMem (fun hm => hbefore (List.mem_of_mem_filter hm))
    (fun hm => hafter (List.mem_of_mem_filter hm))).1 h).1.symm

theorem eq_opsBeforeReadMemory {e : Enc} {mask : Byte} {pre post : List SysOp}
    (h : requestedOps e mask = pre ++ .readMemory :: post) : pre = opsBeforeReadMemory e mask :=
  eq_filter_of_requestedOps_split (after := [.write, .sleep, .exit]) rfl (by decide) (by decide) h

theorem eq_opsBeforeReadCode {e : Enc} {mask : Byte} {pre post : List SysOp}
    (h : requestedOps e mask = pre ++ .readCode :: post) : pre = opsBeforeReadCode e mask :=
  eq_filter_of_requestedOps_split (after := [.readMemory, .write, .sleep, .exit]) rfl (by decide) (by decide) h

/-! ### What a SYS may write -/

theorem execSys_regs_get {mask : Byte} {ret : Operand} {s t : State} (h : execSys mask ret s = .next t) {r : Reg}
    (hw : ¬ (Instr.sys mask ret).writesReg s r) : t.regs.get r = s.regs.get r := by
  by_contra hne
  obtain ⟨pre, o, post, u, v, hops, -, hf, hd⟩ := execSys_change (view := fun x => x.regs.get r)
    (fun _ => rfl) (fun _ _ _ hf => by rw [hf.regs]) h hne
  have hret : ret = .reg r := by
    by_contra hr
    exact hd (hf.regs r hr)
  exact hw ⟨hret, o, hf.not_exit, requests_of_split hops⟩

theorem execSys_mem_read {mask : Byte} {ret : Operand} {s t : State} (h : execSys mask ret s = .next t) {a : Nat}
    (hw : ¬ (Instr.sys mask ret).storesMem s a) : t.mem.read a = s.mem.read a := by
  by_contra hne
  obtain ⟨pre, o, post, u, v, hops, hu, hf, hd⟩ := execSys_change (view := fun x => x.mem.read a)
    (fun _ => rfl) (fun _ _ _ hf => by rw [hf.mem]) h hne
  obtain hm | ⟨rfl, d, hlen, hm⟩ := hf.mem
  · exact hd (by rw [hm])
  · refine hw ⟨requests_of_split hops, u, eq_opsBeforeReadMemory hops ▸ hu, ?_⟩
    by_contra hrange
    exact hd (by rw [hm]; exact Memory.read_writeBytes_outside (by omega))

theorem execSys_code_read {mask : Byte} {ret : Operand} {s t : State} (h : execSys mask ret s = .next t) {a : Nat}
    (hw : ¬ (Instr.sys mask ret).storesCode s a) : t.code.read a = s.code.read a := by
  by_contra hne
  obtain ⟨pre, o, post, u, v, hops, hu, hf, hd⟩ := execSys_change (view := fun x => x.code.read a)
    (fun _ => rfl) (fun _ _ _ hf => by rw [hf.code]) h hne
  obtain ⟨hc, -⟩ | ⟨rfl, d, hlen, hc, -⟩ := hf.code
  · exact hd (by rw [hc])
  · refine hw ⟨requests_of_split hops, u, eq_opsBeforeReadCode hops ▸ hu, ?_⟩
    have hoff := u.codeOffset_le
    by_contra hrange
    exact hd (by rw [hc]; exact Memory.read_writeBytes_outside (by omega))

theorem execSys_codeLen {mask : Byte} {ret : Operand} {s t : State} (h : execSys mask ret s = .next t) :
    t.codeLen = s.codeLen ∨ (s.cfg.policy = .extend ∧ s.cfg.enc.requests mask .readCode = true) := by
  by_cases heq : t.codeLen = s.codeLen
  · exact .inl heq
  obtain ⟨pre, o, post, u, v, hops, hu, hf, hd⟩ := execSys_change (view := State.codeLen)
    (fun _ => rfl) (fun _ _ _ hf => hf.codeLen) h heq
  obtain ⟨-, hc⟩ | ⟨rfl, d, -, -, hc⟩ := hf.code
  · exact absurd hc hd
  · refine .inr ⟨?_, requests_of_split hops⟩
    by_contra hp
    rw [← (runOps_more_frame hu).cfg] at hp
    exact hd (by rw [hc, if_neg hp])

/-! ### What every other instruction may write -/

/-- JMP, with the condition of the table of writes. -/
theorem exec_jmp (mask : Byte) (target : Operand) (s : State) :
    exec (.jmp mask target) s =
      .next (if mask = 0 ∨ mask &&& s.regs.f ≠ 0 then s.setReg .i (s.readOperand target) else s) := by
  show (if jumpTaken mask s.regs.f = true then _ else _) = _
  simp only [jumpTaken_iff]
  split <;> rfl

theorem exec_next_of_not_sys {i : Instr} {s t : State} (hi : i.isSys = false) (h : exec i s = .next t) :
    t = { s with regs := t.regs, mem := t.mem, trace := t.trace } ∧ (i.opc ≠ .cmp → t.trace = s.trace) := by
  obtain ⟨u, hu, hframe⟩ := exec_frame_of_not_sys hi s
  obtain rfl : u = t := Host.Outcome.next.inj (hu.symm.trans h)
  exact hframe

/-- STK moves S if it pushes or pops, and the register it pops into. -/
theorem stk_regs_get {pop push : Operand} {s : State} {r : Reg} (hw : ¬ (Instr.stk pop push).writesReg s r) :
    ((s.push push).pop pop).regs.get r = s.regs.get r := by
  cases pop with
  | none x =>
    cases push with
    | none y => rfl
    | reg src =>
      have hr : r ≠ .s := fun hr => hw (.inl hr)
      rw [State.pop_none, State.push_reg]
      exact (Regs.get_set s.regs .s r _).trans (if_neg hr)
  | reg dst =>
    have hr : r ≠ .s := fun hr => hw (.inl hr)
    have hdst : r ≠ dst := fun hr => hw (.inr (by rw [hr]))
    rw [State.pop_reg_get, if_neg hr, if_neg hdst]
    cases push with
    | none y => rfl
    | reg src =>
      rw [State.push_reg]
      exact (Regs.get_set s.regs .s r _).trans (if_neg hr)

/-- The registers column of the table of writes (10_state.md R23). -/
theorem exec_regs_get {i : Instr} {s t : State} (h : exec i s = .next t) {r : Reg} (hw : ¬ i.writesReg s r) :
    t.regs.get r = s.regs.get r := by
  cases i with
  | imm rd v => cases h; exact (s.writeOperand_get rd _ r).trans (if_neg hw)
  | add r1 r2 => cases h; exact (s.writeOperand_get r1 _ r).trans (if_neg hw)
  | stk pop push => cases h; exact stk_regs_get hw
  | stm addr v => cases h; rfl
  | ldm rd addr => cases h; exact (s.writeOperand_get rd _ r).trans (if_neg hw)
  | cmp r1 r2 => cases h; exact (Regs.get_set s.regs .f r _).trans (if_neg hw)
  | jmp mask target =>
    rw [exec_jmp] at h
    cases h
    split
    · rename_i htaken
      exact (Regs.get_set s.regs .i r _).trans (if_neg fun hr => hw ⟨hr, htaken⟩)
    · rfl
  | sys mask ret => exact execSys_regs_get h hw

/-- An instruction that is no SYS stores at most one byte of M, at an address the Memory column names. -/
theorem exec_mem_of_not_sys {i : Instr} {s t : State} (hi : i.isSys = false) (h : exec i s = .next t) :
    t.mem = s.mem ∨ ∃ addr v : Byte, i.storesMem s addr.toNat ∧ t.mem = s.mem.write addr.toNat v := by
  cases i with
  | imm rd v => cases h; exact .inl (s.writeOperand_mem rd _)
  | add r1 r2 => cases h; exact .inl (s.writeOperand_mem r1 _)
  | stk pop push =>
    cases h
    rw [State.pop_eq]
    cases push with
    | none raw => exact .inl rfl
    | reg src => rw [State.push_reg]; exact .inr ⟨_, _, rfl, rfl⟩
  | stm addr v => cases h; exact .inr ⟨_, _, rfl, rfl⟩
  | ldm rd addr => cases h; exact .inl (s.writeOperand_mem rd _)
  | cmp r1 r2 => cases h; exact .inl rfl
  | jmp mask target => rw [exec_jmp] at h; cases h; split <;> exact .inl rfl
  | sys mask ret => cases hi

theorem exec_mem_read_of_not_sys {i : Instr} {s t : State} (hi : i.isSys = false) (h : exec i s = .next t) {a : Nat}
    (hw : ¬ i.storesMem s a) : t.mem.read a = s.mem.read a := by
  obtain hm | ⟨addr, v, hst, hm⟩ := exec_mem_of_not_sys hi h
  · rw [hm]
  · have hne : a ≠ addr.toNat := by
      rintro rfl
      exact hw hst
    rw [hm, Memory.read_write_other hne]

/-- `code_len` moves only by a SYS that requests read-code, under Extend (44_syscall.md R88). -/
theorem exec_codeLen {i : Instr} {s t : State} (h : exec i s = .next t) :
    t.codeLen = s.codeLen ∨ (s.cfg.policy = .extend ∧
      ∃ mask ret, i = .sys mask ret ∧ s.cfg.enc.requests mask .readCode = true) := by
  cases hi : i.isSys with
  | false => exact .inl (by rw [(exec_next_of_not_sys hi h).1])
  | true =>
    cases i with
    | sys mask ret => exact (execSys_codeLen h).imp_right fun ⟨hp, hreq⟩ => ⟨hp, mask, ret, rfl, hreq⟩
    | _ => cases hi

/-- Settles O41: a SYS by the phase that made a change, every other instruction by its meaning. -/
theorem writeMatrixIsTheFrame : Obligations.WriteMatrixIsTheFrame := by
  intro i s t h
  cases hi : i.isSys with
  | false =>
    obtain ⟨heq, htrace⟩ := exec_next_of_not_sys hi h
    refine ⟨fun r => exec_regs_get h, fun a => exec_mem_read_of_not_sys hi h, fun a _ => by rw [heq],
      exec_codeLen h, exec_cfg h, fun _ => ?_, fun _ => htrace⟩
    rw [heq]
    exact ⟨rfl, rfl, rfl, rfl, rfl⟩
  | true =>
    cases i with
    | sys mask ret =>
      exact ⟨fun r => exec_regs_get h, fun a => execSys_mem_read h, fun a => execSys_code_read h,
        exec_codeLen h, exec_cfg h, nofun, nofun⟩
    | _ => cases hi

end Sys2Proof.Machine
end

section
/-! State: the trace is output only (10_state.md R26). Every operation commutes with replacing the trace. -/

namespace Sys2Proof.Machine

/-- The same machine with another trace. -/
def State.withTrace (s : State) (tr : List TraceEvent) : State := { s with trace := tr }

/-- The same result of a phase with another trace. -/
@[simp] def SysResult.withTrace (tr : List TraceEvent) : SysResult → SysResult
  | .more t => .more (t.withTrace tr)
  | .ended t => .ended (t.withTrace tr)
  | .stuck f => .stuck f

/-- Two outcomes, from states that differ in the traces `old` and `tr` alone, run in parallel: both answer a next
state, with the same events appended and no other difference, or both fault alike. -/
inductive TraceParallel (old tr : List TraceEvent) :
    Host.Outcome State Fault Refusal → Host.Outcome State Fault Refusal → Prop where
  | next (t : State) (evs : List TraceEvent) (h : t.trace = old ++ evs) :
      TraceParallel old tr (.next t) (.next (t.withTrace (tr ++ evs)))
  | fault (f : Fault) : TraceParallel old tr (.fault f) (.fault f)

theorem TraceParallel.next_silent {old : List TraceEvent} (tr : List TraceEvent) {t : State} (h : t.trace = old) :
    TraceParallel old tr (.next t) (.next (t.withTrace tr)) := by
  simpa using TraceParallel.next (old := old) (tr := tr) t [] (by simpa using h)

/-! ### The operations -/

@[simp] theorem State.withTrace_regs (s : State) (tr : List TraceEvent) : (s.withTrace tr).regs = s.regs := rfl

@[simp] theorem State.codeOffset_withTrace (s : State) (tr : List TraceEvent) :
    (s.withTrace tr).codeOffset = s.codeOffset := rfl

@[simp] theorem State.readOperand_withTrace (s : State) (tr : List TraceEvent) (o : Operand) :
    (s.withTrace tr).readOperand o = s.readOperand o := by
  cases o <;> rfl

@[simp] theorem State.writeOperand_withTrace (s : State) (tr : List TraceEvent) (o : Operand) (v : Byte) :
    (s.withTrace tr).writeOperand o v = (s.writeOperand o v).withTrace tr := by
  cases o <;> rfl

@[simp] theorem State.writeResult_withTrace (s : State) (tr : List TraceEvent) (o : Operand) (v : Nat) :
    (s.withTrace tr).writeResult o v = (s.writeResult o v).withTrace tr :=
  s.writeOperand_withTrace tr o _

@[simp] theorem State.writeMemBytes_withTrace (s : State) (tr : List TraceEvent) (base : Nat) (d : List Byte) :
    (s.withTrace tr).writeMemBytes base d = (s.writeMemBytes base d).withTrace tr := rfl

@[simp] theorem State.writeCode_withTrace (s : State) (tr : List TraceEvent) (off : Nat) (d : List Byte) :
    (s.withTrace tr).writeCode off d = (s.writeCode off d).withTrace tr := rfl

@[simp] theorem State.afterRequest_withTrace (s : State) (tr : List TraceEvent) (o : SysOp) (resp : HostResponse) :
    (s.withTrace tr).afterRequest o resp = (s.afterRequest o resp).withTrace tr := rfl

@[simp] theorem State.push_withTrace (s : State) (tr : List TraceEvent) (o : Operand) :
    (s.withTrace tr).push o = (s.push o).withTrace tr := by
  cases o <;> rfl

@[simp] theorem State.pop_withTrace (s : State) (tr : List TraceEvent) (o : Operand) :
    (s.withTrace tr).pop o = (s.pop o).withTrace tr := by
  cases o <;> rfl

@[simp] theorem State.push_trace (s : State) (o : Operand) : (s.push o).trace = s.trace := by
  cases o <;> rfl

@[simp] theorem State.pop_trace (s : State) (o : Operand) : (s.pop o).trace = s.trace := by
  cases o <;> rfl

@[simp] theorem State.updateCodeLen_withTrace (s : State) (tr : List TraceEvent) (b r : Nat) :
    (s.withTrace tr).updateCodeLen b r = (s.updateCodeLen b r).withTrace tr := by
  cases hp : s.cfg.policy <;> simp [State.updateCodeLen, State.withTrace, hp]

/-! ### The sequencer -/

/-- The converse of `runOp_stuck_inv`: a silent host, or one that breaks its duty, leaves the phase stuck. -/
theorem runOp_of_opStuck {ret : Operand} {o : SysOp} {s : State} {f : Fault} (h : OpStuck s o f) :
    runOp ret o s = .stuck f := by
  obtain ⟨ho, hwhy⟩ := h
  refine (runOp_stuck ho ?_).1
  have hans : (s.setPhase (.active o)).hostAnswer (s.sysRequest o) = s.hostAnswer (s.sysRequest o) := rfl
  obtain ⟨ha, rfl⟩ | ⟨resp, ha, hal, rfl⟩ := hwhy
  · simp [State.hostTransact, hans, ha]
  · simp [State.hostTransact, hans, ha, hal]

theorem runOp_withTrace (ret : Operand) (o : SysOp) (s : State) (tr : List TraceEvent) :
    runOp ret o (s.withTrace tr) = (runOp ret o s).withTrace tr := by
  obtain ⟨t, hr, hc⟩ | ⟨t, hr, he⟩ | ⟨f, hr, hst⟩ := runOp_cases ret o s
  · rw [hr]
    cases hc with
    | openFile h ha =>
      rw [runOp_openFile_handle (s := s.withTrace tr) ha]
      simp
    | readCode d ha hd =>
      rw [runOp_readCode_data (s := s.withTrace tr) ha hd]
      simp
    | readMemory d ha hd =>
      rw [runOp_readMemory_data (s := s.withTrace tr) ha hd]
      simp
    | write w ha hw =>
      rw [runOp_write_count (s := s.withTrace tr) ha hw]
      simp
    | sleep ha =>
      rw [runOp_sleep_done (s := s.withTrace tr) ha]
      simp
  · rw [hr]
    cases he with
    | err op ha =>
      rw [runOp_err (s := s.withTrace tr) op ha]
      rfl
    | exit => rfl
  · rw [hr]
    exact runOp_of_opStuck (s := s.withTrace tr) hst

theorem runOps_withTrace (ret : Operand) (ops : List SysOp) (s : State) (tr : List TraceEvent) :
    runOps ret ops (s.withTrace tr) = (runOps ret ops s).withTrace tr := by
  induction ops generalizing s with
  | nil => rfl
  | cons o rest ih =>
    rw [runOps_cons, runOps_cons, runOp_withTrace]
    cases runOp ret o s with
    | more t => exact ih t
    | ended t => rfl
    | stuck f => rfl

/-! ### The instructions and the step -/

theorem execSys_traceParallel (mask : Byte) (ret : Operand) (s : State) (tr : List TraceEvent) :
    TraceParallel s.trace tr (execSys mask ret s) (execSys mask ret (s.withTrace tr)) := by
  have hops := runOps_withTrace ret (requestedOps s.cfg.enc mask) s tr
  have henc : (s.withTrace tr).cfg = s.cfg := rfl
  unfold execSys
  rw [henc, hops]
  cases hr : runOps ret (requestedOps s.cfg.enc mask) s with
  | more u =>
    have htrace := (runOps_more_frame hr).trace
    exact .next ((u.setPhase .idle).emitTrace .sys) _ (congrArg (· ++ _) htrace)
  | ended u =>
    obtain ⟨pre, o, post, v, -, hv, -, hend⟩ := runOps_ended hr
    exact .next_silent tr (hend.frame.trace.trans (runOps_more_frame hv).trace)
  | stuck f => exact .fault f

theorem exec_traceParallel (i : Instr) (s : State) (tr : List TraceEvent) :
    TraceParallel s.trace tr (exec i s) (exec i (s.withTrace tr)) := by
  cases i with
  | imm rd v =>
    simp only [exec, execImm, State.writeOperand_withTrace]
    exact .next_silent tr (s.writeOperand_trace rd _)
  | add r1 r2 =>
    simp only [exec, execAdd, State.readOperand_withTrace, State.writeOperand_withTrace]
    exact .next_silent tr (s.writeOperand_trace r1 _)
  | stk pop push =>
    simp only [exec, execStk, State.push_withTrace, State.pop_withTrace]
    exact .next_silent tr (by simp)
  | stm addr v =>
    simp only [exec, execStm, State.readOperand_withTrace]
    exact .next_silent tr (s.writeMem_trace _ _)
  | ldm rd addr =>
    simp only [exec, execLdm, State.readOperand_withTrace, State.writeOperand_withTrace]
    exact .next_silent tr (s.writeOperand_trace rd _)
  | cmp r1 r2 =>
    simp only [exec, execCmp, State.readOperand_withTrace]
    exact .next _ _ (State.emitTrace_trace _ _)
  | jmp mask target =>
    rw [exec_jmp, exec_jmp, State.readOperand_withTrace]
    show TraceParallel _ _ _ (.next (if mask = 0 ∨ mask &&& s.regs.f ≠ 0 then _ else _))
    split
    · exact .next_silent tr (s.setReg_trace _ _)
    · exact .next_silent tr rfl
  | sys mask ret => exact execSys_traceParallel mask ret s tr

theorem step_traceParallel (s : State) (tr : List TraceEvent) :
    TraceParallel s.trace tr (step s) (step (s.withTrace tr)) := by
  by_cases hr : s.run = .running
  · rcases Nat.lt_or_ge s.regs.i.toNat s.codeLen with hb | hb
    · cases hd : decodeSlot s.cfg.enc s.fetchSlot with
      | ok i =>
        rw [step_of_instr hr hb hd, step_of_instr (s := s.withTrace tr) hr hb hd]
        exact exec_traceParallel i s.advancePc tr
      | error err =>
        rw [step_of_unrecognized hr hb hd, step_of_unrecognized (s := s.withTrace tr) hr hb hd]
        exact .next_silent tr s.advancePc_trace
    · rw [step_of_out_of_bounds hr hb, step_of_out_of_bounds (s := s.withTrace tr) hr hb]
      exact .next_silent tr (s.raiseFatal_trace _)
  · rw [step_of_stopped hr, step_of_stopped (s := s.withTrace tr) hr]
    exact .fault _

/-- Settles O45: the step commutes with replacing the trace. -/
theorem traceIsNeverReadBack : Obligations.TraceIsNeverReadBack := by
  intro s tr
  have hpar : TraceParallel s.trace tr (step s) (step { s with trace := tr }) := step_traceParallel s tr
  refine ⟨fun t ht => ?_, fun f hf => ?_⟩
  · rw [ht] at hpar
    generalize step { s with trace := tr } = out at hpar
    cases hpar with
    | next _ evs h => exact ⟨evs, h, rfl⟩
  · rw [hf] at hpar
    generalize step { s with trace := tr } = out at hpar
    cases hpar with
    | fault _ => rfl

end Sys2Proof.Machine
end

section
/-! State: what every step keeps of the shape of the state (10_state.md R19, R21, R22, R25, 44_syscall.md R79), and
the fetch bound (10_state.md R19, 44_syscall.md R88). -/

namespace Sys2Proof.Machine

/-- The invariant without its clause on the sequencer, which is broken inside a SYS. -/
structure State.Shaped (s : State) : Prop where
  enc : s.cfg.enc.Valid
  mem : s.mem.wf ∧ s.mem.within memSize
  code : s.code.wf ∧ s.code.within codeSize
  codeLen : s.codeLen ≤ 256
  history : ∀ x ∈ s.history, x.lawful = true
  trace : ∀ ev ∈ s.trace, ev.mem.wf ∧ ev.mem.within memSize

theorem State.inv_iff (s : State) : s.Inv ↔ s.Shaped ∧ (s.run = .running → s.sysPhase = .idle) :=
  ⟨fun ⟨henc, hmem, hcode, hlen, hidle, hhist, htrace⟩ => ⟨⟨henc, hmem, hcode, hlen, hhist, htrace⟩, hidle⟩,
    fun ⟨⟨henc, hmem, hcode, hlen, hhist, htrace⟩, hidle⟩ => ⟨henc, hmem, hcode, hlen, hidle, hhist, htrace⟩⟩

theorem Memory.writeBytes_canonical {m : Memory} {size base : Nat} {d : List Byte} (h : m.wf ∧ m.within size)
    (hb : base + d.length ≤ size) : (m.writeBytes base d).wf ∧ (m.writeBytes base d).within size :=
  ⟨Memory.writeBytes_wf h.1 base d, Memory.writeBytes_within h.2 hb⟩

theorem Memory.write_canonical {m : Memory} (h : m.wf ∧ m.within memSize) (addr v : Byte) :
    (m.write addr.toNat v).wf ∧ (m.write addr.toNat v).within memSize :=
  ⟨Memory.write_wf h.1 _ v, Memory.write_within h.2 addr.isLt v⟩

/-! ### A SYS -/

theorem CompletedFrame.shaped {ret : Operand} {s t : State} {o : SysOp} (hf : CompletedFrame ret s o t)
    (hs : s.Shaped) : t.Shaped where
  enc := by rw [hf.cfg]; exact hs.enc
  mem := by
    obtain hm | ⟨-, d, hlen, hm⟩ := hf.mem
    · rw [hm]; exact hs.mem
    · rw [hm]
      exact Memory.writeBytes_canonical hs.mem ((Nat.add_le_add_left hlen _).trans s.clampedLen_le)
  code := by
    obtain ⟨hc, -⟩ | ⟨-, d, hlen, hc, -⟩ := hf.code
    · rw [hc]; exact hs.code
    · have hoff := s.codeOffset_le
      rw [hc]
      exact Memory.writeBytes_canonical hs.code (by omega)
  codeLen := by
    obtain ⟨-, hc⟩ | ⟨-, d, hlen, -, hc⟩ := hf.code
    · rw [hc]; exact hs.codeLen
    · have hbound : s.regs.b.toNat + d.length / 3 ≤ 256 := by
        have hb := s.regs.b.isLt
        simp only [State.codeOffset, codeSize] at hlen
        omega
      rw [hc]
      split
      · exact max_le hs.codeLen hbound
      · exact hs.codeLen
  history := by
    obtain ⟨resp, -, hne, hal, hh⟩ := hf.history
    rw [hh]
    exact List.forall_mem_append.2 ⟨hs.history, List.forall_mem_singleton.2 (lawful_of_allows hne hal).2⟩
  trace := by rw [hf.trace]; exact hs.trace

/-- The transaction that ends the run is lawful too: the exit has no response, the error is one the host may give. -/
theorem EndedFrame.history_lawful {s t : State} {o : SysOp} (hf : EndedFrame s o t) :
    ∃ x : Transaction, t.history = s.history ++ [x] ∧ x.lawful = true := by
  obtain ⟨-, -, hh⟩ | ⟨op, rfl, -, hh⟩ := hf.how
  · exact ⟨_, hh, rfl⟩
  · refine ⟨_, hh, ?_⟩
    simp only [Transaction.lawful, s.sysRequest_lawful, Bool.true_and]
    cases op <;> rfl

theorem EndedFrame.shaped {s t : State} {o : SysOp} (hf : EndedFrame s o t) (hs : s.Shaped) : t.Shaped where
  enc := by rw [hf.cfg]; exact hs.enc
  mem := by rw [hf.mem]; exact hs.mem
  code := by rw [hf.code]; exact hs.code
  codeLen := by rw [hf.codeLen]; exact hs.codeLen
  history := by
    obtain ⟨x, hh, hx⟩ := hf.history_lawful
    rw [hh]
    exact List.forall_mem_append.2 ⟨hs.history, List.forall_mem_singleton.2 hx⟩
  trace := by rw [hf.trace]; exact hs.trace

theorem runOps_shaped {ret : Operand} {ops : List SysOp} {s t : State} (h : runOps ret ops s = .more t) :
    s.Shaped → t.Shaped :=
  runOps_more_induct (P := fun u v => u.Shaped → v.Shaped) h (fun _ => id)
    fun _ _ _ _ _ hop hrest hu => hrest (hop.frame.shaped hu)

/-- The event shows the state's own M. -/
theorem State.Shaped.emitTrace {s : State} (hs : s.Shaped) (kind : TraceKind) : (s.emitTrace kind).Shaped where
  enc := hs.enc
  mem := hs.mem
  code := hs.code
  codeLen := hs.codeLen
  history := hs.history
  trace := List.forall_mem_append.2 ⟨hs.trace, List.forall_mem_singleton.2 hs.mem⟩

theorem State.Shaped.setPhase {s : State} (hs : s.Shaped) (p : SysPhase) : (s.setPhase p).Shaped :=
  ⟨hs.enc, hs.mem, hs.code, hs.codeLen, hs.history, hs.trace⟩

theorem execSys_shaped {mask : Byte} {ret : Operand} {s t : State} (h : execSys mask ret s = .next t)
    (hs : s.Shaped) : t.Shaped := by
  obtain ⟨u, -, hu, rfl⟩ | ⟨pre, o, post, u, -, hu, -, -, hend⟩ := execSys_next_frame h
  · exact ((runOps_shaped hu hs).setPhase .idle).emitTrace .sys
  · exact hend.shaped (runOps_shaped hu hs)

/-- After a SYS the sequencer is idle, or the run has ended. -/
theorem execSys_idle {mask : Byte} {ret : Operand} {s t : State} (h : execSys mask ret s = .next t)
    (hr : t.run = .running) : t.sysPhase = .idle := by
  obtain ⟨u, -, -, rfl⟩ | ⟨pre, o, post, u, -, -, -, -, hend⟩ := execSys_next_frame h
  · rfl
  · exact absurd hr hend.run_ne

/-! ### Every instruction and the step -/

/-- What an instruction other than SYS appends to the trace shows its next state. -/
theorem exec_trace_of_not_sys {i : Instr} {s t : State} (hi : i.isSys = false) (h : exec i s = .next t) :
    t.trace = s.trace ∨ t.trace = s.trace ++ [⟨.cmp, t.regs, t.mem⟩] := by
  cases i with
  | cmp r1 r2 => cases h; exact .inr rfl
  | _ => exact .inl ((exec_next_of_not_sys hi h).2 (by simp [Instr.opc]))

theorem exec_shaped_of_not_sys {i : Instr} {s t : State} (hi : i.isSys = false) (h : exec i s = .next t)
    (hs : s.Shaped) : t.Shaped := by
  have heq := (exec_next_of_not_sys hi h).1
  have hmem : t.mem.wf ∧ t.mem.within memSize := by
    obtain hm | ⟨addr, v, -, hm⟩ := exec_mem_of_not_sys hi h
    · rw [hm]; exact hs.mem
    · rw [hm]; exact Memory.write_canonical hs.mem addr v
  have htrace : ∀ ev ∈ t.trace, ev.mem.wf ∧ ev.mem.within memSize := by
    obtain ht | ht := exec_trace_of_not_sys hi h
    · rw [ht]; exact hs.trace
    · rw [ht]; exact List.forall_mem_append.2 ⟨hs.trace, List.forall_mem_singleton.2 hmem⟩
  rw [heq]
  exact ⟨hs.enc, hmem, hs.code, hs.codeLen, hs.history, htrace⟩

theorem exec_inv {i : Instr} {s t : State} (h : exec i s = .next t) (hs : s.Inv) : t.Inv := by
  rw [State.inv_iff] at hs ⊢
  obtain ⟨hshape, hidle⟩ := hs
  cases hi : i.isSys with
  | false =>
    refine ⟨exec_shaped_of_not_sys hi h hshape, ?_⟩
    rw [(exec_next_of_not_sys hi h).1]
    exact hidle
  | true =>
    cases i with
    | sys mask ret => exact ⟨execSys_shaped h hshape, execSys_idle h⟩
    | _ => cases hi

/-- Settles O46, by the cases of a step: an instruction, an unrecognized opcode, a fetch out of bounds. -/
theorem everyStepKeepsInvariant : Obligations.EveryStepKeepsInvariant := by
  intro s t hs h
  obtain ⟨-, ⟨i, -, -, hexec⟩ | ⟨err, -, -, rfl⟩ | ⟨-, rfl⟩⟩ := step_next_cases h
  · exact exec_inv hexec hs
  · exact hs
  · rw [State.inv_iff] at hs ⊢
    obtain ⟨⟨henc, hmem, hcode, hlen, hhist, htrace⟩, -⟩ := hs
    exact ⟨⟨henc, hmem, hcode, hlen, hhist, htrace⟩, nofun⟩

/-! ### The fetch bound -/

/-- No instruction lowers `code_len`. -/
theorem exec_codeLen_le {i : Instr} {s t : State} (h : exec i s = .next t) : s.codeLen ≤ t.codeLen := by
  cases hi : i.isSys with
  | false => rw [(exec_next_of_not_sys hi h).1]
  | true =>
    cases i with
    | sys mask ret =>
      obtain ⟨u, hseq, -, rfl⟩ | ⟨pre, o, post, u, -, -, hseq, -, hend⟩ := execSys_next_frame h
      · exact hseq.codeLen.1
      · exact hseq.codeLen.1.trans_eq hend.codeLen.symm
    | _ => cases hi

/-- Settles O40: only an executed instruction can move the bound, and that one is a read-code under Extend. -/
theorem fetchBoundFollowsThePolicy : Obligations.FetchBoundFollowsThePolicy := by
  intro s t h
  obtain ⟨-, ⟨i, -, hdecode, hexec⟩ | ⟨err, -, -, rfl⟩ | ⟨-, rfl⟩⟩ := step_next_cases h
  · refine ⟨fun hfixed => ?_, exec_codeLen_le (s := s.advancePc) hexec, fun hne => ?_⟩
    · obtain heq | ⟨hext, -⟩ := exec_codeLen hexec
      · exact heq
      · exact absurd (hfixed.symm.trans hext) (by decide)
    · obtain heq | ⟨-, mask, ret, rfl, hreq⟩ := exec_codeLen hexec
      · exact absurd heq hne
      · exact ⟨mask, ret, hdecode, hreq⟩
  · exact ⟨fun _ => rfl, le_rfl, fun hne => absurd rfl hne⟩
  · exact ⟨fun _ => rfl, le_rfl, fun hne => absurd rfl hne⟩

end Sys2Proof.Machine
end

section
/-! State: the register file (10_state.md R13) and the flags (10_state.md R18). -/

namespace Sys2Proof.Machine

/-- Settles O6, by the laws of a destination write. -/
theorem registerFileHoldsEightSlots : Obligations.RegisterFileHoldsEightSlots := by
  intro s o v
  refine ⟨s.writeOperand_eq o v, fun o' => ?_⟩
  cases o' with
  | none raw => rfl
  | reg r => exact s.writeOperand_get o v r

/-! ### The flags of a compare -/

/-- A bit put in under a condition meets `c` exactly when the condition holds and the bit itself meets `c`. -/
theorem ite_and_ne_zero (p : Prop) [Decidable p] (b c : Byte) :
    (if p then b else 0) &&& c ≠ 0 ↔ p ∧ b &&& c ≠ 0 := by
  by_cases hp : p <;> simp [hp]

/-- Each flag is put in under its condition alone (10_state.md R18): what the flags of a compare meet. -/
theorem compareFlags_and_ne_zero (e : Enc) (u v c : Byte) :
    compareFlags e u v &&& c ≠ 0 ↔
      (u.toNat < v.toNat ∧ e.flag .l &&& c ≠ 0) ∨ (v.toNat < u.toNat ∧ e.flag .g &&& c ≠ 0) ∨
      (u = v ∧ e.flag .e &&& c ≠ 0) ∨ (u ≠ v ∧ e.flag .n &&& c ≠ 0) ∨
      ((u = 0 ∧ v = 0) ∧ e.flag .z &&& c ≠ 0) := by
  have hflags : compareFlags e u v =
      (if u.toNat < v.toNat then e.flag .l else 0) ||| (if v.toNat < u.toNat then e.flag .g else 0) |||
        ((if u = v then e.flag .e else 0) ||| (if u ≠ v then e.flag .n else 0)) |||
        (if u = 0 ∧ v = 0 then e.flag .z else 0) := by
    by_cases heq : u = v <;> simp [compareFlags, Enc.flag, heq]
  simp only [hflags, or_and_ne_zero, ite_and_ne_zero, or_assoc]

/-- The bits of F that carry no flag are 0 after a compare. -/
theorem compareFlags_and_not_flags (e : Enc) (u v : Byte) :
    compareFlags e u v &&&
      ~~~(e.flag .l ||| e.flag .g ||| e.flag .e ||| e.flag .n ||| e.flag .z) = 0 := by
  generalize hc : ~~~(e.flag .l ||| e.flag .g ||| e.flag .e ||| e.flag .n ||| e.flag .z) = c
  have hnone : ¬ ((e.flag .l ||| e.flag .g ||| e.flag .e ||| e.flag .n ||| e.flag .z) &&& c ≠ 0) := by
    simp [← hc]
  rw [← not_ne_iff, compareFlags_and_ne_zero]
  simp only [or_and_ne_zero] at hnone
  tauto

/-- Settles O21: the flags of a compare bit by bit, and the table of writes for every other instruction. -/
theorem flagsComeFromTheCompareAlone : Obligations.FlagsComeFromTheCompareAlone := by
  refine ⟨fun r1 r2 s he => ⟨_, rfl, ?_, compareFlags_and_not_flags _ _ _⟩, rfl,
    fun i s t _ hw h => exec_regs_get h hw⟩
  have hset := fun x => compareFlags_and_ne_zero s.cfg.enc (s.readOperand r1) (s.readOperand r2) (s.cfg.enc.flag x)
  simp only [he.flag_and_ne] at hset
  refine ⟨(hset .l).trans ?_, (hset .g).trans ?_, (hset .e).trans ?_, (hset .n).trans ?_, (hset .z).trans ?_⟩
  all_goals simp [BitVec.toNat_eq]

end Sys2Proof.Machine
end

section
/-! Memory: M and CODE (20_memory.md R28, R31, R38, R41). M has a byte at every address, no data instruction sees
CODE, and a fetch reads what the last read-code stored. -/

namespace Sys2Proof.Machine

/-! ### Reads, writes and address bounds of M -/

/-- Settles O19, by the laws of one byte write. -/
theorem memoryReadsTheLastWrite : Obligations.MemoryReadsTheLastWrite :=
  ⟨fun _ a b v hm => ⟨Memory.write_wf hm a v, Memory.read_write hm a b v⟩, Memory.read_nil⟩

/-- A push moves S up, modulo 256. -/
theorem State.push_reg_s_toNat (s : State) (r : Reg) :
    (s.push (.reg r)).regs.s.toNat = (s.regs.s.toNat + 1) % 256 := by
  rw [State.push_reg]
  exact BitVec.toNat_add s.regs.s 1

/-- A pop into another register moves S down, modulo 256. -/
theorem State.pop_reg_s_toNat (s : State) {r : Reg} (hr : r ≠ .s) :
    (s.pop (.reg r)).regs.s.toNat = (s.regs.s.toNat + 255) % 256 := by
  have hs : (s.pop (.reg r)).regs.s = s.regs.s - 1 := by
    simpa [hr] using s.pop_reg_get r .s
  rw [hs, BitVec.toNat_sub, Nat.add_comm]
  rfl

/-- A path ends at or before the end of M (44_syscall.md R86). -/
theorem toNat_add_pathAt_length_le (m : Memory) (a : Byte) : a.toNat + (pathAt m a).length ≤ memSize := by
  have hlen := pathAt_length_le m a
  have ha : a.toNat < memSize := a.isLt
  omega

/-- Settles O18: every address is a byte of M, S wraps, and the bulk ranges are clamped. -/
theorem noAddressFaultAndNoWrap : Obligations.NoAddressFaultAndNoWrap := by
  refine ⟨fun r1 r2 s => ⟨⟨_, rfl⟩, ⟨_, rfl⟩, ⟨_, rfl⟩⟩, fun r raw s => ⟨?_, fun hr => ?_⟩, fun s => ⟨?_, ?_, ?_⟩⟩
  · exact ⟨s.push (.reg r), rfl, s.push_reg_s_toNat r⟩
  · exact ⟨s.pop (.reg r), rfl, s.pop_reg_s_toNat hr⟩
  · exact ⟨pathAt s.mem s.regs.a, rfl, toNat_add_pathAt_length_le _ _⟩
  · exact ⟨s.clampedLen, rfl, rfl, s.clampedLen_le⟩
  · have hlen := s.mem.readBytes_length s.regs.b.toNat s.clampedLen
    exact ⟨_, rfl, hlen, by rw [hlen]; exact s.clampedLen_le⟩

/-! ### No data instruction sees CODE -/

/-- The same machine with other CODE. -/
def State.withCode (s : State) (c : Memory) : State := { s with code := c }

theorem State.readOperand_withCode (s : State) (c : Memory) (o : Operand) :
    (s.withCode c).readOperand o = s.readOperand o := by
  cases o <;> rfl

theorem State.writeOperand_withCode (s : State) (c : Memory) (o : Operand) (v : Byte) :
    (s.withCode c).writeOperand o v = (s.writeOperand o v).withCode c := by
  cases o <;> rfl

theorem State.push_withCode (s : State) (c : Memory) (o : Operand) :
    (s.withCode c).push o = (s.push o).withCode c := by
  cases o <;> rfl

theorem State.pop_withCode (s : State) (c : Memory) (o : Operand) :
    (s.withCode c).pop o = (s.pop o).withCode c := by
  cases o <;> rfl

/-- STK, STM and LDM do the same whatever CODE holds. -/
theorem exec_withCode_of_data {i : Instr} {s t : State} (hop : i.opc = .stk ∨ i.opc = .stm ∨ i.opc = .ldm)
    (h : exec i s = .next t) (c : Memory) : exec i (s.withCode c) = .next (t.withCode c) := by
  cases i with
  | stk pop push =>
    cases h
    simp only [exec, execStk, State.push_withCode, State.pop_withCode]
  | stm addr v =>
    cases h
    simp only [exec, execStm, State.readOperand_withCode]
    rfl
  | ldm rd addr =>
    cases h
    simp only [exec, execLdm, State.readOperand_withCode, State.writeOperand_withCode]
    rfl
  | _ => simp [Instr.opc] at hop

/-- They keep CODE: doing the same under the CODE that is there, they answer a state that holds it. -/
theorem exec_code_of_data {i : Instr} {s t : State} (hop : i.opc = .stk ∨ i.opc = .stm ∨ i.opc = .ldm)
    (h : exec i s = .next t) : t.code = s.code := by
  have heq : t = t.withCode s.code := Host.Outcome.next.inj (h.symm.trans (exec_withCode_of_data hop h s.code))
  exact (congrArg State.code heq :)

/-- A SYS that changes CODE requests read-code: no other phase writes there. -/
theorem execSys_requests_readCode {mask : Byte} {ret : Operand} {s t : State} (h : execSys mask ret s = .next t)
    (hne : t.code ≠ s.code) : s.cfg.enc.requests mask .readCode = true := by
  obtain ⟨pre, o, post, u, v, hops, -, hf, hd⟩ := execSys_change (view := State.code)
    (fun _ => rfl) (fun _ _ _ hf => hf.code) h hne
  obtain ⟨hc, -⟩ | ⟨rfl, -⟩ := hf.code
  · exact absurd hc hd
  · exact requests_of_split hops

theorem exec_code_of_not_sys {i : Instr} {s t : State} (hi : i.isSys = false) (h : exec i s = .next t) :
    t.code = s.code := by
  rw [(exec_next_of_not_sys hi h).1]

/-- Settles O20: the data instructions by their meanings, a change of CODE by the phase that made it. -/
theorem codeAndMemoryAreSeparate : Obligations.CodeAndMemoryAreSeparate := by
  refine ⟨fun i s t c hop h => ⟨exec_code_of_data hop h, exec_withCode_of_data hop h c⟩, fun s m => rfl,
    fun i s t h hne => ?_⟩
  cases hi : i.isSys with
  | false => exact absurd (exec_code_of_not_sys hi h) hne
  | true =>
    cases i with
    | sys mask ret => exact ⟨mask, ret, rfl, execSys_requests_readCode h hne⟩
    | _ => cases hi

/-! ### A read-code and the next fetch -/

/-- A fetch of slot `k` after `d` is stored at slot `b` reads the three bytes of `d` there, if `d` covers it whole. -/
theorem State.fetchSlot_of_code_eq_writeBytes {t : State} {m : Memory} (hm : m.wf) {b k : Nat} {d : List Byte}
    (hcode : t.code = m.writeBytes (3 * b) d) (hi : t.regs.i.toNat = b + k) (hk : 3 * k + 3 ≤ d.length) :
    t.fetchSlot = ⟨d.getD (3 * k) 0, d.getD (3 * k + 1) 0, d.getD (3 * k + 2) 0⟩ := by
  have hread : ∀ j < 3, t.code.read (3 * t.regs.i.toNat + j) = d.getD (3 * k + j) 0 := fun j hj => by
    rw [hcode, hi, Memory.read_writeBytes hm, if_pos (by omega)]
    congr 1
    omega
  simp only [State.fetchSlot, RawInstr.mk.injEq]
  exact ⟨hread 0 (by decide), hread 1 (by decide), hread 2 (by decide)⟩

/-- A SYS of read-code alone, answered with `d`, leaves `d` in CODE from `3 * B` on (44_syscall.md R87). -/
theorem exec_sys_readCode_code {mask : Byte} {ret : Operand} {s : State} {d : List Byte}
    (honly : s.cfg.enc.requestsOnly mask .readCode) (hd : d.length ≤ codeSize - s.codeOffset)
    (ha : s.hostAnswer (s.sysRequest .readCode) = some (.data d)) :
    ∃ t, exec (.sys mask ret) s = .next t ∧ t.code = s.code.writeBytes s.codeOffset d :=
  ⟨_, exec_sys_only honly (runOp_readCode_data ha hd), by simp [State.afterRequest_eq]⟩

/-- Settles O39: the fetch reads CODE as the read-code left it. -/
theorem readCodeIsSeenByTheNextFetch : Obligations.ReadCodeIsSeenByTheNextFetch := by
  intro mask ret s d hwf honly hd ha
  obtain ⟨t, ht, hcode⟩ := exec_sys_readCode_code (ret := ret) honly hd ha
  exact ⟨t, ht, fun k => State.fetchSlot_of_code_eq_writeBytes hwf hcode⟩

end Sys2Proof.Machine
end

section
/-! Encoding: the decoder and the encoder of one slot are inverse to each other (30_encoding.md R45, R47, R52), so are
the two directions of the codec on whole slots (30_encoding.md R43, R44), and a placed table word is run next. -/

namespace Sys2Proof

/-! ### One slot -/

/-- A slot carries its handler's opcode; the operand kinds are those of the handler, so each operand resolves back. -/
theorem decodeSlot_encode {e : Enc} (he : e.Valid) {i : Instr} (hw : i.wellFormed e = true) :
    decodeSlot e (encode e i) = .ok i := by
  have hop : encode e i = ⟨e.op i.opc, (encode e i).a1, (encode e i).a2⟩ := by cases i <;> rfl
  have hres : ∀ o ∈ i.operands, resolve e (o.byte e) = o := fun o ho =>
    resolve_byte he (List.all_eq_true.1 hw o ho)
  rw [hop, decodeSlot_op he]
  cases i
  all_goals
    simp only [Instr.operands, List.forall_mem_cons] at hres
    simp [Instr.opc, encode, hres]

/-- No validity is needed here: each operand keeps its byte, and the opcode byte is the handler's. -/
theorem encode_of_decodeSlot {e : Enc} {slot : RawInstr} {i : Instr} (h : decodeSlot e slot = .ok i) :
    i.wellFormed e = true ∧ encode e i = slot := by
  obtain ⟨j, hj, hop, heq⟩ | ⟨herr, -⟩ := decodeSlot_cases e slot
  · obtain rfl : j = i := Except.ok.inj (hj.symm.trans h)
    obtain ⟨op, a1, a2⟩ := slot
    obtain rfl : op = e.op j.opc := hop
    cases ho : j.opc
    all_goals
      rw [ho] at heq
      subst heq
      simp [Instr.wellFormed, Instr.operands, encode, Enc.op, resolve_wellFormed]
  · rw [herr] at h
    cases h

/-- Settles O1, by the cases of the decoder: every operand byte can be read off the operand it resolves to. -/
theorem decodeEncodeAgree : Obligations.DecodeEncodeAgree :=
  ⟨fun _ _ he hw => decodeSlot_encode he hw, fun _ _ _ => encode_of_decodeSlot⟩

/-! ### The codec -/

theorem splitSlots_length : ∀ bytes : List Byte, (splitSlots bytes).length = bytes.length / 3
  | [] | [_] | [_, _] => by simp [splitSlots]
  | _ :: _ :: _ :: rest => by
    simp only [splitSlots, List.length_cons, splitSlots_length rest]
    omega

theorem splitSlots_getElem? : ∀ (bytes : List Byte) (k : Nat), k < bytes.length / 3 →
    (splitSlots bytes)[k]? =
      some ⟨bytes.getD (3 * k) 0, bytes.getD (3 * k + 1) 0, bytes.getD (3 * k + 2) 0⟩
  | [], _, hk | [_], _, hk | [_, _], _, hk => absurd hk (by simp)
  | _ :: _ :: _ :: _, 0, _ => rfl
  | _ :: _ :: _ :: rest, k + 1, hk => by
    simp only [List.length_cons] at hk
    exact splitSlots_getElem? rest k (by omega)

/-- Settles O2, three bytes at a time. -/
theorem codecSplitsInThrees : Obligations.CodecSplitsInThrees :=
  fun bytes => ⟨splitSlots_length bytes, splitSlots_getElem? bytes⟩

theorem joinSlots_eq_flatten (slots : List RawInstr) :
    joinSlots slots = (slots.map fun r => [r.op, r.a1, r.a2]).flatten := by
  induction slots with
  | nil => rfl
  | cons r rest ih => rw [joinSlots, ih, RawInstr.bytes, List.map_cons, List.flatten_cons]

/-- Only the trailing bytes that fill no slot are lost. -/
theorem joinSlots_splitSlots : ∀ bytes : List Byte,
    joinSlots (splitSlots bytes) = bytes.take (bytes.length - bytes.length % 3)
  | [] | [_] | [_, _] => rfl
  | op :: a1 :: a2 :: rest => by
    have hlen : rest.length + 3 - (rest.length + 3) % 3 = rest.length - rest.length % 3 + 3 := by omega
    calc joinSlots (splitSlots (op :: a1 :: a2 :: rest))
        = op :: a1 :: a2 :: rest.take (rest.length - rest.length % 3) :=
          congrArg ([op, a1, a2] ++ ·) (joinSlots_splitSlots rest)
      _ = (op :: a1 :: a2 :: rest).take (rest.length + 3 - (rest.length + 3) % 3) := by rw [hlen]; rfl

theorem joinSlots_splitSlots_of_whole {bytes : List Byte} (h : bytes.length % 3 = 0) :
    joinSlots (splitSlots bytes) = bytes := by
  rw [joinSlots_splitSlots, h, Nat.sub_zero, List.take_length]

theorem splitSlots_joinSlots (slots : List RawInstr) : splitSlots (joinSlots slots) = slots := by
  induction slots with
  | nil => rfl
  | cons r rest ih => exact congrArg (r :: ·) ih

/-- Settles O3, by induction on the slots, and three bytes at a time. -/
theorem codecRoundTrip : Obligations.CodecRoundTrip :=
  ⟨joinSlots_eq_flatten, fun bytes => ⟨joinSlots_splitSlots bytes, joinSlots_splitSlots_of_whole⟩,
    splitSlots_joinSlots⟩

/-! ### A table word placed for the next fetch -/

/-- The table's reading of a word is the decoder's reading of its slot. -/
theorem decodeTableWord_eq_some_iff {nbits w : Nat} {i : Instr} :
    decodeTableWord nbits w = some i ↔ decodeSlot encReference (slotOfWord nbits w) = .ok i := by
  simp only [decodeTableWord, RawInstr.bytes, decode]
  cases decodeSlot encReference (slotOfWord nbits w) <;> simp

end Sys2Proof

namespace Sys2Proof.Machine

/-- The next fetch reads the slot that was placed for it. -/
theorem State.placeSlot_fetchSlot {s : State} (hwf : s.code.wf) (slot : RawInstr) :
    (s.placeSlot slot).fetchSlot = slot :=
  State.fetchSlot_of_code_eq_writeBytes (t := s.placeSlot slot) (k := 0) hwf rfl rfl le_rfl

theorem State.placeSlot_fetch_lt (s : State) (slot : RawInstr) :
    (s.placeSlot slot).regs.i.toNat < (s.placeSlot slot).codeLen :=
  Nat.le_max_right s.codeLen (s.regs.i.toNat + 1)

/-- Settles O52: the placed machine runs, its fetch is in bounds and reads the slot of the word. -/
theorem placedWordIsRunNext : Obligations.PlacedWordIsRunNext := by
  intro s w i henc hwf _ hdec
  refine step_of_instr rfl (s.placeSlot_fetch_lt _) ?_
  have hcfg : (s.withFetchWord 24 w).cfg.enc = encReference := henc
  rw [hcfg, State.withFetchWord, State.placeSlot_fetchSlot hwf]
  exact decodeTableWord_eq_some_iff.1 hdec

end Sys2Proof.Machine
end

section
/-! Interpreter: how one step moves the control state and the host history (40_interpreter.md R57, R64,
60_exceptions.md R98, R100, R103), said once; the ways out of RUNNING and the invariant are read off it. -/

namespace Sys2Proof.Machine

/-- The run goes on: the control state is kept, and every transaction added to the history succeeded. -/
structure State.GoesOn (s t : State) : Prop where
  run : t.run = s.run
  history : ∃ ts : List Transaction, t.history = s.history ++ ts ∧ ∀ x ∈ ts, x.succeeded = true

/-- `t` is where a SYS with this mask ended the run: by a requested EXIT (44_syscall.md R92), or by the `Err` answer
to a requested host operation (44_syscall.md R93). -/
inductive SysEndsRun (e : Enc) (mask : Byte) (t : State) : Prop where
  | exit (hreq : e.requests mask .exit = true) (hrun : t.run = .exited t.regs.a)
      (hlast : t.history.getLast? = some ⟨.exit t.regs.a, none⟩)
  | hostError (op : IoOp) (hreq : e.requests mask op.sysOp = true) (hrun : t.run = .fatal (.hostIoError op))
      (req : HostRequest) (hlast : t.history.getLast? = some ⟨req, some .err⟩)

/-! ### The instructions -/

theorem State.goesOn_of_eq {s t : State} (hrun : t.run = s.run) (hhist : t.history = s.history) : s.GoesOn t :=
  ⟨hrun, [], by rw [hhist, List.append_nil], by simp⟩

theorem SequenceFrame.goesOn {ret : Operand} {ops : List SysOp} {s t : State} (hf : SequenceFrame ret ops s t) :
    s.GoesOn t := by
  obtain ⟨ts, hts, -, hall⟩ := hf.history
  exact ⟨hf.run, ts, hts, fun x hx => (hall x hx).1⟩

/-- The phase that ends the run ends it as the SYS does that requested it. -/
theorem EndedFrame.sysEndsRun {s t : State} {o : SysOp} {e : Enc} {mask : Byte} (hf : EndedFrame s o t)
    (hreq : e.requests mask o = true) : SysEndsRun e mask t := by
  obtain ⟨rfl, hrun, hhist⟩ | ⟨op, rfl, hrun, hhist⟩ := hf.how
  · rw [← hf.regs] at hrun hhist
    exact .exit hreq hrun (by rw [hhist, List.getLast?_concat])
  · exact .hostError op hreq hrun _ (by rw [hhist, List.getLast?_concat])

theorem execSys_control {mask : Byte} {ret : Operand} {s t : State} (h : execSys mask ret s = .next t) :
    s.GoesOn t ∨ SysEndsRun s.cfg.enc mask t := by
  obtain ⟨u, hseq, -, rfl⟩ | ⟨pre, o, post, u, hops, -, -, -, hend⟩ := execSys_next_frame h
  · obtain ⟨hrun, hhist⟩ := hseq.goesOn
    exact .inl ⟨hrun, hhist⟩
  · exact .inr (hend.sysEndsRun (requests_of_split hops))

/-- Only a SYS can end the run, and only in its two ways (60_exceptions.md R100). -/
theorem exec_control {i : Instr} {s t : State} (h : exec i s = .next t) :
    s.GoesOn t ∨ ∃ mask ret, i = .sys mask ret ∧ SysEndsRun s.cfg.enc mask t := by
  cases hi : i.isSys with
  | false =>
    have heq := (exec_next_of_not_sys hi h).1
    exact .inl (State.goesOn_of_eq (by rw [heq]) (by rw [heq]))
  | true =>
    cases i with
    | sys mask ret => exact (execSys_control h).imp_right fun hend => ⟨mask, ret, rfl, hend⟩
    | _ => cases hi

/-! ### The step -/

/-- Everything a step can do to the control state and the history. -/
theorem step_control {s t : State} (h : step s = .next t) :
    s.run = .running ∧
    (s.GoesOn t ∨
     (s.codeLen ≤ s.regs.i.toNat ∧ t = s.raiseFatal (.fetchOutOfBounds s.regs.i)) ∨
     ∃ mask ret, s.regs.i.toNat < s.codeLen ∧ decodeSlot s.cfg.enc s.fetchSlot = .ok (.sys mask ret) ∧
       SysEndsRun s.cfg.enc mask t) := by
  obtain ⟨hr, ⟨i, hb, hdec, hexec⟩ | ⟨err, -, -, rfl⟩ | hout⟩ := step_next_cases h
  · refine ⟨hr, ?_⟩
    obtain ⟨hrun, hhist⟩ | ⟨mask, ret, rfl, hend⟩ := exec_control hexec
    · exact .inl ⟨hrun, hhist⟩
    · exact .inr (.inr ⟨mask, ret, hb, hdec, hend⟩)
  · exact ⟨hr, .inl (State.goesOn_of_eq s.advancePc_run s.advancePc_history)⟩
  · exact ⟨hr, .inr (.inl hout)⟩

/-- Settles O43: the cases of `step_control`, without what they say of a run that goes on. -/
theorem waysOutOfRunning : Obligations.WaysOutOfRunning := by
  intro s t hr h
  obtain ⟨-, hgo | ⟨hb, rfl⟩ | ⟨mask, ret, hb, hdec, hend⟩⟩ := step_control h
  · exact .inl (hgo.run.trans hr)
  · exact .inr (.inl ⟨hb, rfl⟩)
  · refine .inr (.inr ⟨mask, ret, hb, hdec, ?_⟩)
    cases hend with
    | exit hreq hrun _ => exact .inl ⟨hreq, hrun⟩
    | hostError op hreq hrun req hlast => exact .inr ⟨op, hreq, hrun, req, hlast⟩

/-! ### The control state and the history -/

theorem State.runMatchesHistory_of_running {s : State} (hr : s.run = .running) :
    s.RunMatchesHistory ↔ ∀ x ∈ s.history, x.succeeded = true := by
  simp only [State.RunMatchesHistory, hr]

theorem State.raiseFatal_fetch_runMatchesHistory {s : State} (hb : s.codeLen ≤ s.regs.i.toNat) :
    (s.raiseFatal (.fetchOutOfBounds s.regs.i)).RunMatchesHistory :=
  ⟨rfl, hb⟩

theorem State.GoesOn.runMatchesHistory {s t : State} (hgo : s.GoesOn t) (hr : s.run = .running)
    (hs : s.RunMatchesHistory) : t.RunMatchesHistory := by
  obtain ⟨hrun, ts, hts, hall⟩ := hgo
  rw [State.runMatchesHistory_of_running hr] at hs
  rw [State.runMatchesHistory_of_running (hrun.trans hr), hts]
  exact List.forall_mem_append.2 ⟨hs, hall⟩

theorem SysEndsRun.runMatchesHistory {e : Enc} {mask : Byte} {t : State} (hend : SysEndsRun e mask t) :
    t.RunMatchesHistory := by
  cases hend with
  | exit _ hrun hlast => simpa only [State.RunMatchesHistory, hrun] using hlast
  | hostError op _ hrun req hlast => simp only [State.RunMatchesHistory, hrun, hlast, Option.map_some]

/-- Settles O47: each case of `step_control` leaves a control state that agrees with the history. -/
theorem controlStateMatchesHistory : Obligations.ControlStateMatchesHistory := by
  intro s t hs h
  obtain ⟨hr, hgo | ⟨hb, rfl⟩ | ⟨mask, ret, -, -, hend⟩⟩ := step_control h
  · exact hgo.runMatchesHistory hr hs
  · exact State.raiseFatal_fetch_runMatchesHistory hb
  · exact hend.runMatchesHistory

end Sys2Proof.Machine
end

section
/-! Interpreter: fetch, increment and dispatch, and the steps that execute no instruction (40_interpreter.md R58 to
R63). -/

namespace Sys2Proof.Machine

/-- A slot whose opcode byte is no `Enc.op` value is no instruction (30_encoding.md R53). -/
theorem decodeSlot_unrecognized {e : Enc} {slot : RawInstr} (hno : ∀ o, slot.op ≠ e.op o) :
    decodeSlot e slot = .error (.unrecognized slot.op) := by
  obtain ⟨i, -, hop, -⟩ | ⟨herr, -⟩ := decodeSlot_cases e slot
  · exact absurd hop (hno i.opc)
  · exact herr

theorem step_of_no_opcode {s : State} (hr : s.run = .running) (hb : s.regs.i.toNat < s.codeLen)
    (hno : ∀ o, s.fetchSlot.op ≠ s.cfg.enc.op o) : step s = .next s.advancePc :=
  step_of_unrecognized hr hb (decodeSlot_unrecognized hno)

/-- Settles O8: the fetched slot is the three bytes, and each opcode byte of a valid encoding decodes to its own
handler alone. -/
theorem dispatchSelectsTheHandler : Obligations.DispatchSelectsTheHandler := by
  rintro s op a1 a2 he hr hb rfl rfl rfl
  have hdispatch : ∀ {o : Opc} {i : Instr},
      decodeSlot s.cfg.enc ⟨s.cfg.enc.op o, s.fetchSlot.a1, s.fetchSlot.a2⟩ = .ok i →
      s.fetchSlot.op = s.cfg.enc.op o → step s = exec i s.advancePc :=
    fun hdec hop => step_of_instr hr hb (by rw [← hop] at hdec; exact hdec)
  exact ⟨hdispatch (decodeSlot_op he .imm _ _), hdispatch (decodeSlot_op he .add _ _),
    hdispatch (decodeSlot_op he .stk _ _), hdispatch (decodeSlot_op he .stm _ _),
    hdispatch (decodeSlot_op he .ldm _ _), hdispatch (decodeSlot_op he .cmp _ _),
    hdispatch (decodeSlot_op he .jmp _ _), hdispatch (decodeSlot_op he .sys _ _), step_of_no_opcode hr hb⟩

/-- Settles O7, by the law of a step in bounds. -/
theorem stepRunsDecodedInstruction : Obligations.StepRunsDecodedInstruction :=
  fun _ _ => step_of_instr

/-- Settles O9: the opcode byte of the fetched slot is the CODE byte at `3 * I`. -/
theorem unrecognizedOpcodeIsIgnored : Obligations.UnrecognizedOpcodeIsIgnored :=
  fun _ hr hb hno => step_of_no_opcode hr hb fun o => (hno o).symm

/-- Settles O10: I is a byte, so it is below a bound of 256. -/
theorem fetchOutOfBoundsIsFatal : Obligations.FetchOutOfBoundsIsFatal :=
  ⟨fun _ => step_of_out_of_bounds, fun s hlen => hlen ▸ s.regs.i.isLt⟩

/-- Settles O11, by the law of a step from a stopped machine. -/
theorem terminalStatesTakeNoStep : Obligations.TerminalStatesTakeNoStep :=
  fun _ => step_of_stopped

end Sys2Proof.Machine
end

section
/-! Immediate-load and Add: each is one destination write (41_imm_add.md R65, R66). -/

namespace Sys2Proof.Machine

theorem exec_imm (rd : Operand) (value : Byte) (s : State) :
    exec (.imm rd value) s = .next (s.writeOperand rd value) := rfl

theorem exec_add (r1 r2 : Operand) (s : State) :
    exec (.add r1 r2) s = .next (s.writeOperand r1 (s.readOperand r1 + s.readOperand r2)) := rfl

theorem State.writeOperand_mem_read (s : State) (o : Operand) (v : Byte) (a : Nat) :
    (s.writeOperand o v).mem.read a = s.mem.read a := by
  rw [State.writeOperand_mem]

/-- Settles O12, by the laws of a destination write. -/
theorem immResult : Obligations.ImmResult :=
  ⟨fun _ a1 a2 he => decodeSlot_op he .imm a1 a2,
    fun r1 a2 s => ⟨s.writeOperand r1 a2, exec_imm r1 a2 s, s.writeOperand_eq r1 a2,
      s.writeOperand_mem_read r1 a2, s.writeOperand_get r1 a2⟩⟩

/-- Settles O13, by the laws of a destination write: the byte written is the sum of the two values read before, and
its value as a number is their sum modulo 256. -/
theorem addResult : Obligations.AddResult := by
  refine ⟨fun _ a1 a2 he => decodeSlot_op he .add a1 a2, fun r1 r2 s => ?_⟩
  refine ⟨_, exec_add r1 r2 s, s.writeOperand_eq r1 _, s.writeOperand_mem_read r1 _, fun r => ?_⟩
  rw [State.writeOperand_get, apply_ite BitVec.toNat, BitVec.toNat_add]

end Sys2Proof.Machine
end

section
/-! Stack, store and load (42_stack_memory.md R69 to R73): STK is a push and then a pop, STM one byte write, LDM one
destination write. -/

namespace Sys2Proof.Machine

theorem exec_stk (pop push : Operand) (s : State) :
    exec (.stk pop push) s = .next ((s.push push).pop pop) := rfl

theorem exec_stm (addr value : Operand) (s : State) :
    exec (.stm addr value) s = .next (s.writeMem (s.readOperand addr) (s.readOperand value)) := rfl

theorem exec_ldm (rd addr : Operand) (s : State) :
    exec (.ldm rd addr) s = .next (s.writeOperand rd (s.readMem (s.readOperand addr))) := rfl

/-! ### STM and LDM -/

/-- Settles O16, by the law of one byte write. -/
theorem stmResult : Obligations.StmResult :=
  ⟨fun _ a1 a2 he => decodeSlot_op he .stm a1 a2,
    fun addr value s hm => ⟨_, exec_stm addr value s, rfl, fun a => Memory.read_write hm _ a _⟩⟩

/-- Settles O17, by the laws of a destination write. -/
theorem ldmResult : Obligations.LdmResult :=
  ⟨fun _ a1 a2 he => decodeSlot_op he .ldm a1 a2,
    fun rd addr s => ⟨_, exec_ldm rd addr s, s.writeOperand_eq rd _, s.writeOperand_mem_read rd _,
      s.writeOperand_get rd _⟩⟩

/-! ### What a push and a pop leave -/

/-- A push changes registers and M only. -/
theorem State.push_eq (s : State) (o : Operand) :
    s.push o = { s with regs := (s.push o).regs, mem := (s.push o).mem } := by
  cases o <;> rfl

/-- A push moves S and no other register. -/
theorem State.push_reg_get (s : State) (src r : Reg) :
    (s.push (.reg src)).regs.get r = if r = .s then s.regs.s + 1 else s.regs.get r := by
  rw [State.push_reg]
  exact Regs.get_set s.regs .s r _

/-- A push stores its source, as it is after the move of S, at the S that is there then, and no other byte. -/
theorem State.push_reg_mem_read {s : State} (hm : s.mem.wf) (src : Reg) (a : Nat) :
    (s.push (.reg src)).mem.read a =
      if a = (s.regs.s + 1).toNat then (if src = .s then s.regs.s + 1 else s.regs.get src) else s.mem.read a := by
  rw [State.push_reg]
  exact Memory.read_write hm _ a _

/-- After a push S is one more. -/
theorem State.push_reg_s (s : State) (src : Reg) : (s.push (.reg src)).regs.s = s.regs.s + 1 :=
  s.push_reg_get src .s

/-- After a push the byte at S is the byte pushed. -/
theorem State.push_reg_mem_read_s {s : State} (hm : s.mem.wf) (src : Reg) :
    (s.push (.reg src)).mem.read (s.push (.reg src)).regs.s.toNat =
      if src = .s then s.regs.s + 1 else s.regs.get src := by
  rw [State.push_reg_s, State.push_reg_mem_read hm, if_pos rfl]

theorem State.pop_mem (s : State) (o : Operand) : (s.pop o).mem = s.mem := by
  rw [State.pop_eq]

/-- A pop into another register than S moves S down. -/
theorem State.pop_reg_s (s : State) {dst : Reg} (hdst : dst ≠ .s) :
    (s.pop (.reg dst)).regs.s = s.regs.s - 1 := by
  simpa [hdst] using s.pop_reg_get dst .s

/-- A pop into another register than S puts the byte at S there. -/
theorem State.pop_reg_get_dst (s : State) {dst : Reg} (hdst : dst ≠ .s) :
    (s.pop (.reg dst)).regs.get dst = s.mem.read s.regs.s.toNat := by
  rw [State.pop_reg_get, if_neg hdst, if_pos rfl]

/-! ### STK -/

/-- Settles O15: the pop loads at the S the push left, and moves it back. -/
theorem pushThenPopGivesTheByteBack : Obligations.PushThenPopGivesTheByteBack := by
  intro src dst x y s hm hsrc hdst
  have hs := s.push_reg_s src
  have htop : (s.push (.reg src)).mem.read (s.push (.reg src)).regs.s.toNat = s.regs.get src :=
    (State.push_reg_mem_read_s hm src).trans (if_neg hsrc)
  refine ⟨s.push (.reg src), _, exec_stk (.none x) (.reg src) s, exec_stk (.reg dst) (.none y) _, hs, htop,
    ?_, ?_, ?_⟩
  · exact (State.pop_reg_get_dst _ hdst).trans htop
  · rw [State.push_none, State.pop_reg_s _ hdst, hs, BitVec.add_sub_cancel]
  · exact State.pop_mem _ _

/-- Settles O14: what the push leaves, for a named source and for NONE, and then what the pop makes of it. -/
theorem stkResult : Obligations.StkResult := by
  intro pop push s hm up pushed sp top
  have hregs : ∀ r, (s.push push).regs.get r = if r = .s then sp else s.regs.get r := by
    cases push with
    | none raw =>
      intro r
      by_cases hr : r = .s
      · subst hr; rfl
      · rw [if_neg hr, State.push_none]
    | reg src => exact s.push_reg_get src
  have hs : (s.push push).regs.s = sp := hregs .s
  have hmem : ∀ a, (s.push push).mem.read a = if a = up.toNat ∧ pushed.isSome then top else s.mem.read a := by
    cases push with
    | none raw => simp [pushed]
    | reg src => exact fun a => (State.push_reg_mem_read hm src a).trans (if_congr (and_iff_left rfl).symm rfl rfl)
  have htop : (s.push push).mem.read (s.push push).regs.s.toNat = top := by
    cases push with
    | none raw => rfl
    | reg src => exact State.push_reg_mem_read_s hm src
  refine ⟨_, exec_stk pop push s, ?_, fun a => ?_, fun r => ?_⟩
  · rw [State.pop_eq, State.push_eq]
  · rw [State.pop_mem, hmem]
  · cases pop with
    | none raw => exact hregs r
    | reg dst =>
      rw [State.pop_reg_get, htop, hs, hregs]
      by_cases hr : r = .s <;> simp [hr]

end Sys2Proof.Machine
end

section
/-! Compare and Jump: CMP is one write of F and one trace event, JMP at most one write of I (43_compare_jump.md R74
to R76). -/

namespace Sys2Proof.Machine

theorem exec_cmp (r1 r2 : Operand) (s : State) :
    exec (.cmp r1 r2) s =
      .next ((s.setReg .f (compareFlags s.cfg.enc (s.readOperand r1) (s.readOperand r2))).emitTrace .cmp) := rfl

/-- Settles O22, by the law of a register write and the four values of a compare. -/
theorem cmpResult : Obligations.CmpResult := by
  intro r1 r2 s
  refine ⟨_, exec_cmp r1 r2 s, rfl, fun _ => rfl, fun r => ?_⟩
  exact (Regs.get_set s.regs .f r _).trans (if_congr Iff.rfl (compareFlags_eq _ _ _) rfl)

/-- Settles O23, by the cases of the jump condition: taken, it is one write of I; otherwise it is no write. -/
theorem jmpResult : Obligations.JmpResult := by
  intro mask target s
  rw [exec_jmp]
  by_cases htaken : mask = 0 ∨ mask &&& s.regs.f ≠ 0
  · refine ⟨s.setReg .i (s.readOperand target), by rw [if_pos htaken], rfl, fun _ => rfl, fun r => ?_⟩
    exact (Regs.get_set s.regs .i r _).trans (if_congr (and_iff_left htaken).symm rfl rfl)
  · exact ⟨s, by rw [if_neg htaken], rfl, fun _ => rfl, fun r => (if_neg fun hr => htaken hr.2).symm⟩

end Sys2Proof.Machine
end

section
/-! Syscall: a SYS as the outcome of its sequencer, and what each operation does alone (44_syscall.md R82 to R92, R94,
R95, R97). -/

namespace Sys2Proof.Machine

/-! ### The instruction as the outcome of its sequencer -/

/-- How the end of the sequencer ends the instruction (44_syscall.md R82, R94). -/
def SysResult.outcome : SysResult → Host.Outcome State Fault Refusal
  | .more t => .next ((t.setPhase .idle).emitTrace .sys)
  | .ended t => .next t
  | .stuck f => .fault f

theorem exec_sys (mask : Byte) (ret : Operand) (s : State) :
    exec (.sys mask ret) s = (runOps ret (requestedOps s.cfg.enc mask) s).outcome := by
  show execSys mask ret s = _
  unfold execSys
  cases runOps ret (requestedOps s.cfg.enc mask) s <;> rfl

/-! ### A mask that requests nothing -/

theorem requestedOps_eq_nil {e : Enc} {mask : Byte} (h : ∀ o, e.requests mask o = false) :
    requestedOps e mask = [] :=
  List.filter_eq_nil_iff.2 fun o _ => by rw [h o]; exact Bool.false_ne_true

/-- Settles O24: the sequencer has no operation to run. -/
theorem sysRequestingNothingOnlyTraces : Obligations.SysRequestingNothingOnlyTraces := by
  intro mask ret s hnone
  rw [exec_sys, requestedOps_eq_nil hnone]
  rfl

/-! ### The open path (44_syscall.md R86) -/

/-- The path is cut at the first NUL of the bytes from A up to the end of M. -/
theorem pathAt_eq_take (m : Memory) (a : Byte) :
    pathAt m a = (m.readBytes a.toNat (memSize - a.toNat)).take
      ((m.readBytes a.toNat (memSize - a.toNat)).findIdx fun b => !(b != 0)) :=
  List.takeWhile_eq_take_findIdx_not

theorem pathAt_length (m : Memory) (a : Byte) :
    (pathAt m a).length = (m.readBytes a.toNat (memSize - a.toNat)).findIdx fun b => !(b != 0) := by
  rw [pathAt_eq_take, List.length_take_of_le List.findIdx_le_length]

theorem pathAt_getElem? {m : Memory} {a : Byte} {j : Nat} (hj : j < (pathAt m a).length) :
    (pathAt m a)[j]? = some (m.read (a.toNat + j)) := by
  have hin : j < (m.readBytes a.toNat (memSize - a.toNat)).length := by
    have hle := pathAt_length_le m a
    rw [Memory.readBytes_length]
    omega
  rw [pathAt_eq_take, List.getElem?_take_of_lt (pathAt_length m a ▸ hj), List.getElem?_eq_getElem hin,
    Memory.readBytes_getElem]

theorem read_ne_zero_of_lt_pathAt_length {m : Memory} {a : Byte} {j : Nat} (hj : j < (pathAt m a).length) :
    m.read (a.toNat + j) ≠ 0 := by
  have hmem := List.mem_of_getElem? (pathAt_getElem? hj)
  simpa using List.all_eq_true.1 (pathAt_no_nul m a) _ hmem

/-- Where the path ends inside M, a NUL ends it. -/
theorem read_pathAt_end_eq_zero {m : Memory} {a : Byte} (hend : a.toNat + (pathAt m a).length < memSize) :
    m.read (a.toNat + (pathAt m a).length) = 0 := by
  rw [pathAt_length] at hend ⊢
  have hin : (m.readBytes a.toNat (memSize - a.toNat)).findIdx (fun b => !(b != 0)) <
      (m.readBytes a.toNat (memSize - a.toNat)).length := by
    rw [Memory.readBytes_length]
    omega
  have hnul := List.findIdx_getElem (w := hin)
  rw [Memory.readBytes_getElem] at hnul
  simpa using hnul

/-- Settles O26: the end is just behind the last byte of the path. -/
theorem openPathEndsAtNulOrEndOfMemory : Obligations.OpenPathEndsAtNulOrEndOfMemory := by
  intro m a
  refine ⟨a.toNat + (pathAt m a).length, by omega, toNat_add_pathAt_length_le m a, read_pathAt_end_eq_zero,
    fun k hak hk => ?_, by omega, fun j hj => pathAt_getElem? (by omega)⟩
  obtain ⟨j, rfl⟩ := Nat.exists_eq_add_of_le hak
  exact read_ne_zero_of_lt_pathAt_length (by omega)

/-! ### One operation that completes -/

/-- A SYS of one operation that leaves `u` and then its result `v`: only the registers, the phase and the trace differ
from `u`, and the event shows the registers with the result. -/
theorem exec_sys_only_writeResult {mask : Byte} {ret : Operand} {s u : State} {o : SysOp} {v : Nat}
    (honly : s.cfg.enc.requestsOnly mask o) (hr : runOp ret o s = .more (u.writeResult ret v)) :
    exec (.sys mask ret) s =
      .next { u with
        regs := (u.writeResult ret v).regs
        sysPhase := .idle
        trace := u.trace ++ [⟨.sys, (u.writeResult ret v).regs, u.mem⟩] } := by
  rw [exec_sys_only honly hr]
  cases ret <;> rfl

theorem State.updateCodeLen_eq (s : State) (b r : Nat) :
    s.updateCodeLen b r =
      { s with codeLen := if s.cfg.policy = .extend then max s.codeLen (b + r / 3) else s.codeLen } := by
  rw [← State.updateCodeLen_codeLen]
  unfold State.updateCodeLen
  split <;> rfl

/-- Bytes that are those of `m` from `base` on, one by one, are the bulk read there. -/
theorem Memory.eq_readBytes {m : Memory} {base : Nat} {bytes : List Byte}
    (h : ∀ j, j < bytes.length → bytes[j]? = some (m.read (base + j))) :
    bytes = m.readBytes base bytes.length := by
  refine List.ext_getElem (m.readBytes_length base _).symm fun j hj hj' => ?_
  rw [Memory.readBytes_getElem]
  exact Option.some.inj ((List.getElem?_eq_getElem hj).symm.trans (h j hj))

/-- The count of a clamped transfer, which C bounds, is not reduced by the result write. -/
theorem State.mod_eq_of_le_clampedLen {s : State} {n : Nat} (h : n ≤ s.clampedLen) : n % 256 = n :=
  Nat.mod_eq_of_lt (by have := s.clampedLen_le_c; omega)

/-- Settles O25: the handle is the result of the one operation. -/
theorem sysOpenResult : Obligations.SysOpenResult := by
  intro mask ret s h honly ha
  exact ⟨_, exec_sys_only_writeResult honly (runOp_openFile_handle ha), rfl,
    (s.afterRequest .openFile (.handle h)).writeResult_get_toNat ret h⟩

/-- Settles O27: the answered bytes are one bulk write to CODE, and their count is the result. -/
theorem sysReadCodeResult : Obligations.SysReadCodeResult := by
  intro mask ret s d hwf honly hd ha
  have hexec := exec_sys_only_writeResult (ret := ret) honly (runOp_readCode_data ha hd)
  rw [State.updateCodeLen_eq] at hexec
  exact ⟨_, hexec, rfl, Memory.read_writeBytes hwf s.codeOffset d, State.writeResult_get_toNat _ ret d.length⟩

/-- Settles O28: the answered bytes are one bulk write to M, and their count is the result. -/
theorem sysReadMemoryResult : Obligations.SysReadMemoryResult := by
  intro mask ret s d hwf honly hd ha
  refine ⟨_, exec_sys_only_writeResult honly (runOp_readMemory_data ha hd), rfl,
    Memory.read_writeBytes hwf s.regs.b.toNat d, fun r => ?_⟩
  rw [State.writeResult_get_toNat, State.mod_eq_of_le_clampedLen hd]
  rfl

/-- Settles O29: the bytes sent are the bulk read of M, and the answered count is the result. -/
theorem sysWriteResult : Obligations.SysWriteResult := by
  intro mask ret s w bytes honly hlen hbytes hw ha
  have hreq : s.sysRequest .write = .write s.regs.a bytes := by
    rw [Memory.eq_readBytes hbytes, hlen]
    rfl
  have hclamp : w ≤ s.clampedLen := hw.trans_eq hlen
  rw [← hreq] at ha ⊢
  refine ⟨_, exec_sys_only_writeResult honly (runOp_write_count ha hclamp), rfl, fun r => ?_⟩
  rw [State.writeResult_get_toNat, State.mod_eq_of_le_clampedLen hclamp]
  rfl

/-- Settles O30: the result of a sleep is 0. -/
theorem sysSleepResult : Obligations.SysSleepResult := by
  intro mask ret s honly ha
  exact ⟨_, exec_sys_only_writeResult honly (runOp_sleep_done ha), rfl,
    (s.afterRequest .sleep .done).writeResult_get ret 0⟩

end Sys2Proof.Machine
end

section
/-! Syscall: several operations in one SYS, its errors, and the host (44_syscall.md R79 to R84, R92, R93, R96). -/

namespace Sys2Proof

/-! ### The bits of a mask -/

/-- The bits of a mask that name an operation. -/
def Enc.sysBits (e : Enc) : Byte :=
  e.sys .openFile ||| e.sys .readCode ||| e.sys .readMemory ||| e.sys .write ||| e.sys .sleep ||| e.sys .exit

theorem Enc.sysBits_and_sys (e : Enc) (o : SysOp) : e.sysBits &&& e.sys o = e.sys o := by
  ext i hi
  cases o <;> simp [Enc.sysBits] <;> tauto

theorem Enc.requests_and_sysBits (e : Enc) (mask : Byte) (o : SysOp) :
    e.requests (mask &&& e.sysBits) o = e.requests mask o := by
  rw [Enc.requests, BitVec.and_assoc, e.sysBits_and_sys]
  rfl

theorem Enc.requests_and_not_sysBits (e : Enc) (mask : Byte) (o : SysOp) :
    e.requests (mask &&& ~~~e.sysBits) o = false := by
  have hzero : ~~~e.sysBits &&& e.sys o = 0 := by
    rw [← e.sysBits_and_sys o, ← BitVec.and_assoc, BitVec.not_and_self]
    exact BitVec.zero_and
  rw [Enc.requests, BitVec.and_assoc, hzero]
  simp

end Sys2Proof

namespace Sys2Proof.Machine

/-! ### The operation that ends the instruction -/

/-- Where the operations before `o` completed, the SYS goes on from there with `o`. -/
theorem runOps_requested_of_split {mask : Byte} {ret : Operand} {s s1 : State} {o : SysOp} {pre post : List SysOp}
    (hops : requestedOps s.cfg.enc mask = pre ++ o :: post) (hpre : runOps ret pre s = .more s1) :
    runOps ret (requestedOps s.cfg.enc mask) s = runOps ret (o :: post) s1 := by
  rw [hops, runOps_append, hpre]

theorem exec_sys_of_ended {mask : Byte} {ret : Operand} {s s1 t : State} {o : SysOp} {pre post : List SysOp}
    (hops : requestedOps s.cfg.enc mask = pre ++ o :: post) (hpre : runOps ret pre s = .more s1)
    (ho : runOp ret o s1 = .ended t) : exec (.sys mask ret) s = .next t := by
  rw [exec_sys, runOps_requested_of_split hops hpre, runOps_cons, ho]
  rfl

theorem exec_sys_of_stuck {mask : Byte} {ret : Operand} {s s1 : State} {o : SysOp} {pre post : List SysOp} {f : Fault}
    (hops : requestedOps s.cfg.enc mask = pre ++ o :: post) (hpre : runOps ret pre s = .more s1)
    (ho : OpStuck s1 o f) : exec (.sys mask ret) s = .fault f := by
  rw [exec_sys, runOps_requested_of_split hops hpre, runOps_cons, runOp_of_opStuck ho]
  rfl

/-- Settles O31: EXIT always ends the run. -/
theorem sysExitEndsTheRun : Obligations.SysExitEndsTheRun := by
  intro mask ret s s1 pre hops hpre
  exact exec_sys_of_ended hops hpre (runOp_exit ret s1)

/-- A phase of SLEEP never ends the run. -/
theorem not_opEnded_sleep {s t : State} : ¬ OpEnded s .sleep t := by
  intro h
  obtain ⟨hexit, -⟩ | ⟨op, hop, -⟩ := h.frame.how
  · cases hexit
  · cases op <;> cases hop

/-- Settles O32: an `Err` ends the run with nothing but the transaction recorded. -/
theorem hostErrorIsFatal : Obligations.HostErrorIsFatal := by
  refine ⟨fun mask ret s s1 op pre post hops hpre ha => ?_, fun ret s t h => not_opEnded_sleep (runOp_ended h),
    fun ret s t h => ?_⟩
  · exact ⟨_, exec_sys_of_ended hops hpre (runOp_err op ha), rfl⟩
  · rw [runOp_exit] at h
    cases h
    rfl

/-- Settles O33: a phase without an allowed answer is stuck. -/
theorem hostBreachLeavesTheBlockStuck : Obligations.HostBreachLeavesTheBlockStuck := by
  intro mask ret s s1 o pre post hops hpre ho
  exact ⟨fun ha => exec_sys_of_stuck hops hpre ⟨ho, .inl ⟨ha, rfl⟩⟩,
    fun resp ha hal => exec_sys_of_stuck hops hpre ⟨ho, .inr ⟨resp, ha, hal, rfl⟩⟩⟩

/-! ### A dutiful host -/

theorem SysResult.outcome_of_not_stuck {res : SysResult} (h : ∀ f, res ≠ .stuck f) :
    ∃ t, res.outcome = .next t := by
  cases res with
  | more t => exact ⟨_, rfl⟩
  | ended t => exact ⟨t, rfl⟩
  | stuck f => exact absurd rfl (h f)

theorem SysResult.outcome_ne_refused (res : SysResult) (r : Refusal) : res.outcome ≠ .refused r := by
  cases res <;> exact nofun

/-- Settles O34: a fault is a stuck phase, which a free answer never causes. -/
theorem sysCompletesForEveryDutifulHost : Obligations.SysCompletesForEveryDutifulHost := by
  intro mask ret s
  refine ⟨fun hs => ?_, fun f h => ?_, fun r => ?_, fun t hr h => ?_⟩
  · rw [exec_sys]
    exact SysResult.outcome_of_not_stuck (runOps_unscripted ret _ hs)
  · obtain ⟨pre, o, post, s1, hops, hpre, ho, hwhy⟩ := execSys_fault h
    exact ⟨pre, o, post, s1, hops, hpre, ho, hwhy⟩
  · rw [exec_sys]
    exact SysResult.outcome_ne_refused _ r
  · obtain hgo | hend := execSys_control h
    · exact .inl (hgo.run.trans hr)
    · cases hend with
      | exit hreq hrun _ => exact .inr (.inl ⟨_, hrun, hreq⟩)
      | hostError op hreq hrun _ _ => exact .inr (.inr ⟨op, hrun, hreq⟩)

/-! ### The operations of a mask, in order -/

/-- A phase is entered from any phase alike. -/
theorem runOp_setPhase (ret : Operand) (o : SysOp) (s : State) (p : SysPhase) :
    runOp ret o (s.setPhase p) = runOp ret o s := by
  cases o <;> rfl

/-- The phase a SYS starts in does not show in its outcome. -/
theorem outcome_runOps_setPhase (ret : Operand) (ops : List SysOp) (s : State) (p : SysPhase) :
    (runOps ret ops (s.setPhase p)).outcome = (runOps ret ops s).outcome := by
  cases ops with
  | nil => rfl
  | cons o rest => rw [runOps_cons, runOps_cons, runOp_setPhase]

theorem runOps_ended_run_ne {ret : Operand} {ops : List SysOp} {s t : State} (h : runOps ret ops s = .ended t) :
    t.run ≠ .running := by
  obtain ⟨pre, o, post, u, -, -, -, hend⟩ := runOps_ended h
  exact hend.frame.run_ne

/-- Running the operations of a mask from `t` is the SYS of that mask in `t` with the sequencer idle. -/
theorem outcome_runOps_requestedOps {mask : Byte} {ret : Operand} {s t : State} (hcfg : t.cfg = s.cfg) :
    (runOps ret (requestedOps s.cfg.enc mask) t).outcome = exec (.sys mask ret) (t.setPhase .idle) := by
  rw [exec_sys, outcome_runOps_setPhase, State.setPhase_cfg, hcfg]

/-- Settles O35: the sequencer runs the appended list in two parts, and neither the idle phase nor, once it is taken
back, the event between them shows. -/
theorem sysIsItsOperationsInOrder : Obligations.SysIsItsOperationsInOrder := by
  intro m m1 m2 ret s hr hops
  rw [exec_sys m, exec_sys m1, hops, runOps_append]
  cases h1 : runOps ret (requestedOps s.cfg.enc m1) s with
  | more u =>
    have hframe := runOps_more_frame h1
    have hrun : ((u.setPhase .idle).emitTrace .sys).run = .running := hframe.run.trans hr
    simp only [SysResult.outcome]
    rw [if_pos hrun, ← hframe.trace]
    exact outcome_runOps_requestedOps hframe.cfg
  | ended u =>
    simp only [SysResult.outcome, runOps_ended_run_ne h1, if_false]
  | stuck f => rfl

/-! ### The mask -/

/-- Settles O36: a mask is read only through the bits that name an operation. -/
theorem sysMaskBitsWithoutOperationAreIgnored : Obligations.SysMaskBitsWithoutOperationAreIgnored := by
  refine ⟨fun e mask => rfl, fun mask ret s _ => ⟨?_, ?_⟩⟩
  · have hops : requestedOps s.cfg.enc (mask &&& s.cfg.enc.sysBits) = requestedOps s.cfg.enc mask :=
      List.filter_congr fun o _ => s.cfg.enc.requests_and_sysBits mask o
    rw [exec_sys, ← hops]
    exact (exec_sys _ ret s).symm
  · exact sysRequestingNothingOnlyTraces _ ret s (s.cfg.enc.requests_and_not_sysBits mask)

/-! ### The registers of a SYS -/

/-- Settles O37, by the table of writes. -/
theorem sysWritesOnlyTheReturnRegister : Obligations.SysWritesOnlyTheReturnRegister := by
  intro mask ret s t h
  have hframe : ∀ r, ¬ (Instr.sys mask ret).writesReg s r → t.regs.get r = s.regs.get r :=
    fun r => exec_regs_get h
  refine ⟨fun r hr => hframe r fun hw => hr hw.1, fun raw hret => Regs.ext_get fun r => hframe r ?_,
    fun honly => Regs.ext_get fun r => hframe r ?_⟩
  · rintro ⟨hr, -⟩
    cases hret.symm.trans hr
  · rintro ⟨-, o, ho, hreq⟩
    exact ho ((honly o).1 hreq)

/-! ### The host history -/

/-- The transaction that ends the run is the exit, which has no response, or an `Err`. -/
theorem EndedFrame.transactionOf_not_succeeded {s t : State} {o : SysOp} (hf : EndedFrame s o t) :
    (s.transactionOf o).succeeded = false := by
  obtain ⟨-, -, hhist⟩ | ⟨op, -, -, hhist⟩ := hf.how
  all_goals
    have heq := List.append_cancel_left (hf.transaction.symm.trans hhist)
    rw [List.singleton_inj.1 heq]
    rfl

/-- Transaction `j` of `ts` is that of operation `j` of `ops`, in the state the `j` before it left (D8). -/
def RecordsEach (ret : Operand) (s : State) (ops : List SysOp) (ts : List Transaction) : Prop :=
  ∀ j o, ops[j]? = some o → ∃ u, runOps ret (ops.take j) s = .more u ∧ ts[j]? = some (u.transactionOf o)

/-- One more operation, with its transaction in the state the completed ones left. -/
theorem RecordsEach.concat {ret : Operand} {s u : State} {ops : List SysOp} {ts : List Transaction}
    (h : RecordsEach ret s ops ts) (hlen : ts.length = ops.length) (hops : runOps ret ops s = .more u) (o : SysOp) :
    RecordsEach ret s (ops ++ [o]) (ts ++ [u.transactionOf o]) := by
  intro j o' hj
  rcases Nat.lt_or_ge j ops.length with hlt | hge
  · rw [List.getElem?_append_left hlt] at hj
    rw [List.take_append_of_le_length hlt.le, List.getElem?_append_left (hlen ▸ hlt)]
    exact h j o' hj
  · obtain rfl : j = ops.length := by
      have hbound := (List.getElem?_eq_some_iff.1 hj).1
      rw [List.length_append, List.length_singleton] at hbound
      omega
    rw [List.getElem?_concat_length, Option.some.injEq] at hj
    subst hj
    exact ⟨u, by rw [List.take_left]; exact hops, by rw [← hlen, List.getElem?_concat_length]⟩

/-- Settles O38: what the completed operations recorded, and, where the run ended, the transaction that ended it. -/
theorem hostHistoryRecordsEachRequest : Obligations.HostHistoryRecordsEachRequest := by
  intro i s t hr h
  cases i with
  | sys mask ret =>
    obtain ⟨u, hseq, hu, rfl⟩ | ⟨pre, o, post, u, hops, hu, -, hend, hframe⟩ := execSys_next_frame h
    · obtain ⟨ts, hts, hlen, hall, hrec⟩ := runOps_more_history hu
      exact ⟨ts, hts, _, [], (List.append_nil _).symm, hlen, hrec, fun _ => ⟨rfl, hall⟩,
        fun hne => absurd (hseq.run.trans hr) hne⟩
    · obtain ⟨ts, hts, hlen, hall, hrec⟩ := runOps_more_history hu
      refine ⟨ts ++ [u.transactionOf o], by rw [hframe.transaction, hts, List.append_assoc], pre ++ [o], post,
        by rw [hops, List.append_cons], by simp [hlen], RecordsEach.concat hrec hlen hu o,
        fun hrun => absurd hrun hframe.run_ne, fun _ => ⟨pre, o, u, rfl, hu, hend, ?_, fun x hx => ?_⟩⟩
      · rw [← hlen, List.take_left]
        exact hall
      · rw [List.getLast?_concat, Option.some.injEq] at hx
        exact hx ▸ hframe.transactionOf_not_succeeded
  | _ => exact ⟨[], by rw [(exec_next_of_not_sys rfl h).1, List.append_nil], rfl⟩

end Sys2Proof.Machine
end

section
/-! Exceptions: how a run can end (60_exceptions.md R99, R100) and what the trace records (60_exceptions.md R107,
R108, 44_syscall.md R94). -/

namespace Sys2Proof

/-- No fatal stop reports the status of a successful exit (60_exceptions.md R99). -/
theorem FatalReason.status_ne_zero (why : FatalReason) : why.status ≠ 0 := Nat.succ_ne_zero _

end Sys2Proof

namespace Sys2Proof.Machine

/-- Settles O42: the frame of every instruction but SYS holds the control state. -/
theorem onlySysCanEndTheRun : Obligations.OnlySysCanEndTheRun := by
  intro i s hi
  obtain ⟨t, hexec, hframe, -⟩ := exec_frame_of_not_sys hi s
  exact ⟨t, hexec, by rw [hframe]⟩

/-- Settles O53, by the control states. -/
theorem statusPortReportsTheEnd : Obligations.StatusPortReportsTheEnd := by
  refine fun s => ⟨fun h => ?_, fun code h => ?_, fun why h => ⟨why.status, ?_, why.status_ne_zero⟩⟩
  all_goals rw [State.exitStatus, h]

/-- A SYS from a running machine traces itself exactly if the machine runs on: the event follows the last operation,
and a phase that ends the run comes before it. -/
theorem execSys_trace {mask : Byte} {ret : Operand} {s t : State} (hr : s.run = .running)
    (h : execSys mask ret s = .next t) :
    t.trace = s.trace ++ if t.run = .running then [⟨.sys, t.regs, t.mem⟩] else [] := by
  obtain ⟨u, hseq, -, rfl⟩ | ⟨pre, o, post, u, -, -, hseq, -, hend⟩ := execSys_next_frame h
  · have hrun : ((u.setPhase .idle).emitTrace .sys).run = .running := hseq.run.trans hr
    rw [if_pos hrun, ← hseq.trace]
    rfl
  · rw [if_neg hend.run_ne, List.append_nil, hend.trace, hseq.trace]

/-- Settles O44, by the cases of a step and, for an executed instruction, by its constructor. -/
theorem traceEventsAreThoseOfCmpAndSys : Obligations.TraceEventsAreThoseOfCmpAndSys := by
  intro s t hr h
  obtain ⟨-, ⟨i, hb, hdec, hexec⟩ | ⟨err, hb, hdec, rfl⟩ | ⟨hb, rfl⟩⟩ := step_next_cases h
  · rw [if_pos hb, hdec]
    cases i with
    | cmp r1 r2 => cases hexec; rfl
    | sys mask ret => exact execSys_trace (s := s.advancePc) hr hexec
    | _ => exact ((exec_next_of_not_sys rfl hexec).2 nofun).trans (List.append_nil _).symm
  · rw [if_pos hb, hdec, List.append_nil, State.advancePc_trace]
  · rw [if_neg hb.not_gt, List.append_nil, State.raiseFatal_trace]

end Sys2Proof.Machine
end

section
/-! Reset and load (70_reset_and_hazards.md R112, R113, R115, R116). Reset is the load of no bytes, so what holds of
every loaded state holds at reset. -/

namespace Sys2Proof

theorem encReference_valid : encReference.Valid := by decide

end Sys2Proof

namespace Sys2Proof.Machine

theorem State.reset_regs_get (r : Reg) : State.reset.regs.get r = 0 := by cases r <;> rfl

/-! ### What a load answers -/

section

variable {cfg : Config} {script : List (Option HostResponse)} {bytes : List Byte} {t : State}

theorem State.load_next_iff :
    State.load cfg script bytes = .next t ↔ bytes.length ≤ codeSize ∧
      t = { State.reset with
        cfg := cfg
        code := Memory.writeBytes [] 0 bytes
        codeLen := (splitSlots bytes).length
        hostScript := script } := by
  rw [State.load]
  split
  next h => rw [Host.Outcome.next.injEq, eq_comm, and_iff_right h]
  next h => exact iff_of_false nofun fun ht => h ht.1

theorem State.load_eq_refused (h : codeSize < bytes.length) :
    State.load cfg script bytes = .refused (.loadTooLong bytes.length) := if_neg h.not_ge

theorem State.load_nil : State.load configReference [] [] = .next State.reset := rfl

/-- Beyond the loaded bytes CODE reads 0, which is the spec's decision D6. -/
theorem Memory.read_writeBytes_nil (bytes : List Byte) (a : Nat) :
    (Memory.writeBytes [] 0 bytes).read a = bytes.getD a 0 := by
  rw [Memory.read_writeBytes (m := []) reset_memories_canonical.1]
  split
  · rfl
  · rw [Memory.read_nil, List.getD_eq_default _ _ (by omega)]

/-! ### The invariants -/

/-- 768 bytes of CODE are 256 slots, the bound of `code_len` (10_state.md R19, R22). -/
theorem State.load_inv (h : State.load cfg script bytes = .next t) (henc : cfg.enc.Valid) : t.Inv := by
  obtain ⟨hmem, hmemSize, hcode, hcodeSize⟩ := reset_memories_canonical
  obtain ⟨hlen, rfl⟩ := State.load_next_iff.1 h
  have hslots : (splitSlots bytes).length ≤ 256 :=
    (splitSlots_length bytes).trans_le (Nat.div_le_div_right (c := 3) hlen)
  have hload := Memory.writeBytes_canonical ⟨hcode, hcodeSize⟩ ((Nat.zero_add _).trans_le hlen)
  exact (State.inv_iff _).2 ⟨⟨henc, ⟨hmem, hmemSize⟩, hload, hslots, List.forall_mem_nil _, List.forall_mem_nil _⟩,
    fun _ => rfl⟩

theorem State.load_runMatchesHistory (h : State.load cfg script bytes = .next t) : t.RunMatchesHistory := by
  obtain ⟨-, rfl⟩ := State.load_next_iff.1 h
  exact (State.runMatchesHistory_of_running rfl).2 (List.forall_mem_nil _)

end

/-! ### The obligations -/

/-- Settles O51: CODE is one bulk write to an empty memory, everything else but the parameters and the script is as at
reset. -/
theorem loadBuildsTheInitialState : Obligations.LoadBuildsTheInitialState := by
  refine fun cfg script bytes => ⟨fun hlen => ?_, State.load_eq_refused⟩
  have hload := State.load_next_iff (cfg := cfg) (script := script).2 ⟨hlen, rfl⟩
  exact ⟨_, hload, State.reset_regs_get, Memory.read_nil, Memory.read_writeBytes_nil bytes, splitSlots_length bytes,
    rfl, rfl, rfl, rfl, rfl, rfl, State.load_inv hload, State.load_runMatchesHistory hload⟩

/-- Settles O49: both memories list no cell. -/
theorem resetState : Obligations.ResetState :=
  ⟨State.reset_regs_get, Memory.read_nil, Memory.read_nil, rfl, rfl, rfl, rfl, rfl⟩

/-- Settles O50: reset is the load of no bytes under the reference encoding. -/
theorem resetMeetsTheInvariants : Obligations.ResetMeetsTheInvariants :=
  ⟨State.load_inv State.load_nil encReference_valid, State.load_runMatchesHistory State.load_nil⟩

end Sys2Proof.Machine
end

section
/-! The opcode table (spec/opcode_table.json): a word of the table decodes to the instruction whose encoding under Enc0
it is, and a word with the byte of no handler decodes to none (92_eei_decisions.md D2, D3). -/

namespace Sys2Proof

theorem decodeTableWord_of_slot_eq_encode {nbits w : Nat} {i : Instr} (hw : i.wellFormed encReference = true)
    (hslot : slotOfWord nbits w = encode encReference i) : decodeTableWord nbits w = some i := by
  rw [decodeTableWord_eq_some_iff, hslot]
  exact decodeSlot_encode encReference_valid hw

theorem decodeTableWord_of_no_opcode {nbits w : Nat} (hno : ∀ o, (slotOfWord nbits w).op ≠ encReference.op o) :
    decodeTableWord nbits w = none := by
  refine Option.eq_none_iff_forall_ne_some.2 fun i hi => ?_
  have hdec := decodeTableWord_eq_some_iff.1 hi
  rw [Machine.decodeSlot_unrecognized hno] at hdec
  cases hdec

/-- Settles O4: five of the words are the encodings of their instructions, and the opcode byte 3 of the last is no
handler's. -/
theorem tableWordsDecode : Obligations.TableWordsDecode :=
  ⟨decodeTableWord_of_slot_eq_encode (by decide) (by decide),
    decodeTableWord_of_slot_eq_encode (by decide) (by decide),
    decodeTableWord_of_slot_eq_encode (by decide) (by decide),
    decodeTableWord_of_slot_eq_encode (by decide) (by decide),
    decodeTableWord_of_slot_eq_encode (by decide) (by decide),
    decodeTableWord_of_no_opcode fun o => by cases o <;> decide⟩

end Sys2Proof
end
